-- ==== Sys2Proof/Word.lean ====
section
/-! DEFINITION. The words of CORE: every value is an unsigned integer of a stated width (spec/00_scope.md R5). -/

namespace Sys2Proof

/-- A byte of memory, a general register, a timer (R4: `V_WIDTH`, `TIMER_WIDTH`). -/
abbrev Byte := BitVec 8

/-- An instruction word, `PC`, `I` or a stack entry (R4: `PC_WIDTH`, `I_WIDTH`, `STACK_WIDTH`). -/
abbrev Word := BitVec 16

/-- A 4-bit slice of a word: a register index `x` or `y`, a sprite height `n` (R62). -/
abbrev Nibble := BitVec 4

/-- The 12-bit address immediate `nnn` (R62). -/
abbrev Addr := BitVec 12

end Sys2Proof
end

