-- ==== Sys2Proof/Syntax.lean ====
section
/-! DEFINITION. The instructions: one constructor per row of spec/opcode_table.json, in the table's order
(spec/30_encoding.md R66 for the 21 forms, R67 for the 15 sets of unrecognised words). -/

namespace Sys2Proof

/-- An instruction word read into its operand fields (R62). The `nop…` constructors keep the ignored bits of the word, so
that every word is the encoding of exactly one instruction (log 8). -/
inductive Instr where
  | cls                                   -- 00E0
  | ret                                   -- 00EE
  | jp (nnn : Addr)                       -- 1nnn
  | call (nnn : Addr)                     -- 2nnn
  | ldVxKk (x : Nibble) (kk : Byte)       -- 6xkk
  | addVxKk (x : Nibble) (kk : Byte)      -- 7xkk
  | ldVxVy (x y : Nibble)                 -- 8xy0
  | orVxVy (x y : Nibble)                 -- 8xy1
  | andVxVy (x y : Nibble)                -- 8xy2
  | xorVxVy (x y : Nibble)                -- 8xy3
  | addVxVy (x y : Nibble)                -- 8xy4
  | subVxVy (x y : Nibble)                -- 8xy5
  | shrVxVy (x y : Nibble)                -- 8xy6
  | shlVxVy (x y : Nibble)                -- 8xyE
  | ldI (nnn : Addr)                      -- Annn
  | jpV0 (nnn : Addr)                     -- Bnnn
  | rnd (x : Nibble) (kk : Byte)          -- Cxkk
  | drw (x y n : Nibble)                  -- Dxyn
  | ldVxDt (x : Nibble)                   -- Fx07
  | ldDtVx (x : Nibble)                   -- Fx15
  | ldStVx (x : Nibble)                   -- Fx18
  | nop0 (ignored : BitVec 12)            -- 0..., but 00E0 and 00EE
  | nop3 (ignored : BitVec 12)            -- 3...
  | nop4 (ignored : BitVec 12)            -- 4...
  | nop5 (ignored : BitVec 12)            -- 5...
  | nop9 (ignored : BitVec 12)            -- 9...
  | nopE (ignored : BitVec 12)            -- E...
  | nop8x7 (ignored : BitVec 8)           -- 8..7
  | nop8x8 (ignored : BitVec 8)           -- 8..8
  | nop8x9 (ignored : BitVec 8)           -- 8..9
  | nop8xA (ignored : BitVec 8)           -- 8..A
  | nop8xB (ignored : BitVec 8)           -- 8..B
  | nop8xC (ignored : BitVec 8)           -- 8..C
  | nop8xD (ignored : BitVec 8)           -- 8..D
  | nop8xF (ignored : BitVec 8)           -- 8..F
  | nopF (ignored : BitVec 12)            -- F..., but Fx07, Fx15 and Fx18
  deriving DecidableEq, Repr

end Sys2Proof
end

