-- ==== Sys2Proof/WellFormed.lean ====
section
/-! DEFINITION. Which terms of Instr stand for a word: the forms of R66 have no reserved operand value, and two of the sets of
R67 leave out the words an earlier row takes (spec/30_encoding.md R66, R67). -/

namespace Sys2Proof

/-- The instruction is what some word decodes to. -/
def Instr.wf : Instr → Bool
  | .cls | .ret => true
  | .jp _ | .call _ | .ldI _ | .jpV0 _ => true
  | .ldVxKk _ _ | .addVxKk _ _ | .rnd _ _ => true
  | .ldVxVy _ _ | .orVxVy _ _ | .andVxVy _ _ | .xorVxVy _ _ => true
  | .addVxVy _ _ | .subVxVy _ _ | .shrVxVy _ _ | .shlVxVy _ _ => true
  | .drw _ _ _ => true
  | .ldVxDt _ | .ldDtVx _ | .ldStVx _ => true
  -- 0x00E0 and 0x00EE are taken by CLS and RET
  | .nop0 w => w != 0x0E0#12 && w != 0x0EE#12
  | .nop3 _ | .nop4 _ | .nop5 _ | .nop9 _ | .nopE _ => true
  | .nop8x7 _ | .nop8x8 _ | .nop8x9 _ | .nop8xA _ | .nop8xB _ | .nop8xC _ | .nop8xD _ | .nop8xF _ => true
  -- the low bytes 0x07, 0x15 and 0x18 are taken by the timer accesses
  | .nopF w => w.extractLsb' 0 8 != 0x07#8 && w.extractLsb' 0 8 != 0x15#8 && w.extractLsb' 0 8 != 0x18#8

end Sys2Proof
end

