-- ==== Sys2Proof/Decode.lean ====
section
/-! DEFINITION. The decoder, total on every word (spec/30_encoding.md R60 to R67), the opcode table as data, and the encoder. -/

namespace Sys2Proof

/-! ### The word and its fields (R45, R61, R62) -/

/-- The instruction word of the two bytes fetched, `(high << 8) | low`, the high byte first (spec/20_memory.md R45). -/
def wordOfBytes (high low : Byte) : Word := (high.setWidth 16 <<< 8) ||| low.setWidth 16

/-- The byte of a word that stands at the lower address (R45). -/
def highByte (w : Word) : Byte := w.extractLsb' 8 8

/-- The byte of a word that stands at the higher address (R45). -/
def lowByte (w : Word) : Byte := w.extractLsb' 0 8

/-- `op`, `nibble1`: `word[15:12]`. -/
def fieldOp (w : Word) : Nibble := w.extractLsb' 12 4

/-- `x`, `nibble2`: `word[11:8]`. -/
def fieldX (w : Word) : Nibble := w.extractLsb' 8 4

/-- `y`, `nibble3`: `word[7:4]`. -/
def fieldY (w : Word) : Nibble := w.extractLsb' 4 4

/-- `n` and `fn`, `nibble4`: `word[3:0]`. -/
def fieldN (w : Word) : Nibble := w.extractLsb' 0 4

/-- `kk` and `fb`: `word[7:0]`. -/
def fieldKk (w : Word) : Byte := w.extractLsb' 0 8

/-- `nnn`: `word[11:0]`. -/
def fieldNnn (w : Word) : Addr := w.extractLsb' 0 12

/-- The bits of a word of the `op = 8` group that an unlisted `fn` leaves ignored: `word[11:4]`. -/
def fieldXy (w : Word) : BitVec 8 := w.extractLsb' 4 8

/-! ### The decoder -/

/-- The `op = 8` group, by `fn` (R66 rows 7 to 14; the other eight values are the sets of R67). -/
def decodeAlu (w : Word) : Instr :=
  let x := fieldX w
  let y := fieldY w
  let fn := fieldN w
  if fn = 0x0#4 then .ldVxVy x y
  else if fn = 0x1#4 then .orVxVy x y
  else if fn = 0x2#4 then .andVxVy x y
  else if fn = 0x3#4 then .xorVxVy x y
  else if fn = 0x4#4 then .addVxVy x y
  else if fn = 0x5#4 then .subVxVy x y
  else if fn = 0x6#4 then .shrVxVy x y
  else if fn = 0xE#4 then .shlVxVy x y
  else if fn = 0x7#4 then .nop8x7 (fieldXy w)
  else if fn = 0x8#4 then .nop8x8 (fieldXy w)
  else if fn = 0x9#4 then .nop8x9 (fieldXy w)
  else if fn = 0xA#4 then .nop8xA (fieldXy w)
  else if fn = 0xB#4 then .nop8xB (fieldXy w)
  else if fn = 0xC#4 then .nop8xC (fieldXy w)
  else if fn = 0xD#4 then .nop8xD (fieldXy w)
  else .nop8xF (fieldXy w)

/-- The `op = F` group, by `fb` (R66 rows 19 to 21, R67). -/
def decodeTimer (w : Word) : Instr :=
  if fieldKk w = 0x07#8 then .ldVxDt (fieldX w)
  else if fieldKk w = 0x15#8 then .ldDtVx (fieldX w)
  else if fieldKk w = 0x18#8 then .ldStVx (fieldX w)
  else .nopF (fieldNnn w)

/-- The words no condition of R64 selects: `op` in 0, 3, 4, 5, 9, E (R67). -/
def decodeUnrecognised (w : Word) : Instr :=
  if fieldOp w = 0x0#4 then .nop0 (fieldNnn w)
  else if fieldOp w = 0x3#4 then .nop3 (fieldNnn w)
  else if fieldOp w = 0x4#4 then .nop4 (fieldNnn w)
  else if fieldOp w = 0x5#4 then .nop5 (fieldNnn w)
  else if fieldOp w = 0x9#4 then .nop9 (fieldNnn w)
  else .nopE (fieldNnn w)

/-- The dispatch of R64: the first condition that holds selects the instruction, and every other word is a no-operation. -/
def decodeWord (w : Word) : Instr :=
  let op := fieldOp w
  if w = 0x00E0#16 then .cls
  else if w = 0x00EE#16 then .ret
  else if op = 0x1#4 then .jp (fieldNnn w)
  else if op = 0x2#4 then .call (fieldNnn w)
  else if op = 0x6#4 then .ldVxKk (fieldX w) (fieldKk w)
  else if op = 0x7#4 then .addVxKk (fieldX w) (fieldKk w)
  else if op = 0x8#4 then decodeAlu w
  else if op = 0xA#4 then .ldI (fieldNnn w)
  else if op = 0xB#4 then .jpV0 (fieldNnn w)
  else if op = 0xC#4 then .rnd (fieldX w) (fieldKk w)
  else if op = 0xD#4 then .drw (fieldX w) (fieldY w) (fieldN w)
  else if op = 0xF#4 then decodeTimer w
  else decodeUnrecognised w

/-- Why a sequence of bytes is not decoded. -/
inductive DecodeError where
  /-- Fewer than two bytes: an instruction is exactly two bytes (R60). Safe: the fetch always has two. -/
  | truncated
  deriving DecidableEq, Repr

/-- The decoder on bytes, the byte at the lower address first. It reads two bytes and no more (R60); any two bytes decode. -/
def decode : List Byte → Except DecodeError Instr
  | high :: low :: _ => .ok (decodeWord (wordOfBytes high low))
  | _ => .error .truncated

/-! ### The encoder -/

/-- A word of format R, D or T: four nibbles (R64). -/
def wordOfNibbles (a b c d : Nibble) : Word :=
  (a.setWidth 16 <<< 12) ||| (b.setWidth 16 <<< 8) ||| (c.setWidth 16 <<< 4) ||| d.setWidth 16

/-- A word of format A: `op` and a 12-bit field (R64). -/
def wordOfOpNnn (op : Nibble) (nnn : BitVec 12) : Word := (op.setWidth 16 <<< 12) ||| nnn.setWidth 16

/-- A word of format I or T: `op`, `x` and a low byte (R64). -/
def wordOfOpXKk (op x : Nibble) (kk : Byte) : Word :=
  (op.setWidth 16 <<< 12) ||| (x.setWidth 16 <<< 8) ||| kk.setWidth 16

/-- An unrecognised word of the `op = 8` group: the ignored bits and `fn` (R67). -/
def wordOfAluNop (ignored : BitVec 8) (fn : Nibble) : Word :=
  (0x8#16 <<< 12) ||| (ignored.setWidth 16 <<< 4) ||| fn.setWidth 16

/-- The word of an instruction, from the tables of R64, R66 and R67. -/
def encode : Instr → Word
  | .cls => 0x00E0#16
  | .ret => 0x00EE#16
  | .jp nnn => wordOfOpNnn 0x1#4 nnn
  | .call nnn => wordOfOpNnn 0x2#4 nnn
  | .ldVxKk x kk => wordOfOpXKk 0x6#4 x kk
  | .addVxKk x kk => wordOfOpXKk 0x7#4 x kk
  | .ldVxVy x y => wordOfNibbles 0x8#4 x y 0x0#4
  | .orVxVy x y => wordOfNibbles 0x8#4 x y 0x1#4
  | .andVxVy x y => wordOfNibbles 0x8#4 x y 0x2#4
  | .xorVxVy x y => wordOfNibbles 0x8#4 x y 0x3#4
  | .addVxVy x y => wordOfNibbles 0x8#4 x y 0x4#4
  | .subVxVy x y => wordOfNibbles 0x8#4 x y 0x5#4
  | .shrVxVy x y => wordOfNibbles 0x8#4 x y 0x6#4
  | .shlVxVy x y => wordOfNibbles 0x8#4 x y 0xE#4
  | .ldI nnn => wordOfOpNnn 0xA#4 nnn
  | .jpV0 nnn => wordOfOpNnn 0xB#4 nnn
  | .rnd x kk => wordOfOpXKk 0xC#4 x kk
  | .drw x y n => wordOfNibbles 0xD#4 x y n
  | .ldVxDt x => wordOfOpXKk 0xF#4 x 0x07#8
  | .ldDtVx x => wordOfOpXKk 0xF#4 x 0x15#8
  | .ldStVx x => wordOfOpXKk 0xF#4 x 0x18#8
  | .nop0 w => wordOfOpNnn 0x0#4 w
  | .nop3 w => wordOfOpNnn 0x3#4 w
  | .nop4 w => wordOfOpNnn 0x4#4 w
  | .nop5 w => wordOfOpNnn 0x5#4 w
  | .nop9 w => wordOfOpNnn 0x9#4 w
  | .nopE w => wordOfOpNnn 0xE#4 w
  | .nop8x7 w => wordOfAluNop w 0x7#4
  | .nop8x8 w => wordOfAluNop w 0x8#4
  | .nop8x9 w => wordOfAluNop w 0x9#4
  | .nop8xA w => wordOfAluNop w 0xA#4
  | .nop8xB w => wordOfAluNop w 0xB#4
  | .nop8xC w => wordOfAluNop w 0xC#4
  | .nop8xD w => wordOfAluNop w 0xD#4
  | .nop8xF w => wordOfAluNop w 0xF#4
  | .nopF w => wordOfOpNnn 0xF#4 w

/-- The two bytes of an instruction as memory holds them, the high byte at the lower address (R45, R60). -/
def encodeBytes (i : Instr) : List Byte := [highByte (encode i), lowByte (encode i)]

/-! ### The opcode table as data -/

/-- One row of spec/opcode_table.json: a word `w` is of the row when `w & mask = pattern` and no row of smaller order
takes it (R66, R67). -/
structure OpcodeRow where
  order   : Nat
  mask    : Word
  pattern : Word
  deriving DecidableEq, Repr

/-- The word is selected by the row's mask and pattern. -/
def OpcodeRow.selects (r : OpcodeRow) (w : Word) : Bool := w &&& r.mask == r.pattern

/-- The 21 instruction forms (R66). -/
def formRows : List OpcodeRow :=
  [⟨1, 0xFFFF, 0x00E0⟩, ⟨2, 0xFFFF, 0x00EE⟩, ⟨3, 0xF000, 0x1000⟩, ⟨4, 0xF000, 0x2000⟩,
   ⟨5, 0xF000, 0x6000⟩, ⟨6, 0xF000, 0x7000⟩] ++
  [⟨7, 0xF00F, 0x8000⟩, ⟨8, 0xF00F, 0x8001⟩, ⟨9, 0xF00F, 0x8002⟩, ⟨10, 0xF00F, 0x8003⟩,
   ⟨11, 0xF00F, 0x8004⟩, ⟨12, 0xF00F, 0x8005⟩, ⟨13, 0xF00F, 0x8006⟩, ⟨14, 0xF00F, 0x800E⟩] ++
  [⟨15, 0xF000, 0xA000⟩, ⟨16, 0xF000, 0xB000⟩, ⟨17, 0xF000, 0xC000⟩, ⟨18, 0xF000, 0xD000⟩,
   ⟨19, 0xF0FF, 0xF007⟩, ⟨20, 0xF0FF, 0xF015⟩, ⟨21, 0xF0FF, 0xF018⟩]

/-- The sets of unrecognised words (R67). -/
def nopRows : List OpcodeRow :=
  [⟨22, 0xF000, 0x0000⟩, ⟨23, 0xF000, 0x3000⟩, ⟨24, 0xF000, 0x4000⟩, ⟨25, 0xF000, 0x5000⟩,
   ⟨26, 0xF000, 0x9000⟩, ⟨27, 0xF000, 0xE000⟩] ++
  [⟨28, 0xF00F, 0x8007⟩, ⟨29, 0xF00F, 0x8008⟩, ⟨30, 0xF00F, 0x8009⟩, ⟨31, 0xF00F, 0x800A⟩,
   ⟨32, 0xF00F, 0x800B⟩, ⟨33, 0xF00F, 0x800C⟩, ⟨34, 0xF00F, 0x800D⟩, ⟨35, 0xF00F, 0x800F⟩,
   ⟨36, 0xF000, 0xF000⟩]

/-- All rows, by order. -/
def opcodeRows : List OpcodeRow := formRows ++ nopRows

/-- The order of the row that takes a word: the first row that selects it. -/
def rowOfWord (w : Word) : Option Nat := (opcodeRows.find? (·.selects w)).map (·.order)

/-- The order of an instruction's own row. -/
def Instr.rowOrder : Instr → Nat
  | .cls => 1 | .ret => 2 | .jp _ => 3 | .call _ => 4 | .ldVxKk _ _ => 5 | .addVxKk _ _ => 6
  | .ldVxVy _ _ => 7 | .orVxVy _ _ => 8 | .andVxVy _ _ => 9 | .xorVxVy _ _ => 10
  | .addVxVy _ _ => 11 | .subVxVy _ _ => 12 | .shrVxVy _ _ => 13 | .shlVxVy _ _ => 14
  | .ldI _ => 15 | .jpV0 _ => 16 | .rnd _ _ => 17 | .drw _ _ _ => 18
  | .ldVxDt _ => 19 | .ldDtVx _ => 20 | .ldStVx _ => 21
  | .nop0 _ => 22 | .nop3 _ => 23 | .nop4 _ => 24 | .nop5 _ => 25 | .nop9 _ => 26 | .nopE _ => 27
  | .nop8x7 _ => 28 | .nop8x8 _ => 29 | .nop8x9 _ => 30 | .nop8xA _ => 31 | .nop8xB _ => 32
  | .nop8xC _ => 33 | .nop8xD _ => 34 | .nop8xF _ => 35 | .nopF _ => 36

/-- The instruction executes as the no-operation of R140: its word is unrecognised (R67). -/
def Instr.isNop (i : Instr) : Bool := decide (22 ≤ i.rowOrder)

/-! ### The host's reading of a table word -/

/-- The word of `nbits` given bits, the bits above them zero (the table numbers bit 0 least significant). -/
def tableWord (nbits w : Nat) : Word := BitVec.ofNat 16 (w % 2 ^ nbits)

/-- What the decoder reads from an instruction whose bits are `w`, laid out as memory holds it; more than one word of bits
is no instruction of CORE. -/
def decodeTableWord (nbits w : Nat) : Option Instr :=
  if nbits ≤ 16 then
    match decode [highByte (tableWord nbits w), lowByte (tableWord nbits w)] with
    | .ok i => some i
    | .error _ => none
  else none

end Sys2Proof
end

