-- ==== Sys2Proof/Config.lean ====
section
/-! DEFINITION. What an implementation of CORE fixes (spec/00_scope.md R4), what can happen to CORE, and the two free
values of the model. -/

namespace Sys2Proof

/-- `MEM_SIZE`: addresses 0x000 to 0xFFF exist (R4, R40). -/
abbrev Config.memSize : Nat := 4096

/-- `FONT_BASE` (R4, R44). -/
abbrev Config.fontBase : Nat := 0x050

/-- `FONT_LEN`: 16 glyphs of 5 bytes (R4, R44). -/
abbrev Config.fontLen : Nat := 80

/-- `PROG_BASE`, which is `RESET_PC` too (R4, R41). -/
abbrev Config.progBase : Nat := 0x200

/-- `PROG_MAX`: the most bytes an image may have (R4, R43). -/
abbrev Config.progMax : Nat := 3584

/-- Glyph "0", the bytes the source gives (R44). -/
def Config.glyph0 : List Byte := [0xF0, 0x90, 0x90, 0x90, 0xF0]

/-- Glyphs "1" to "7" of the customary font, the default of the spec's parameter `FONT[5..79]` (R44).
PRESUMED (log 1), unsafe: the spec takes these bytes from general knowledge. -/
def Config.glyphs1to7 : List Byte :=
  [0x20, 0x60, 0x20, 0x20, 0x70] ++ [0xF0, 0x10, 0xF0, 0x80, 0xF0] ++ [0xF0, 0x10, 0xF0, 0x10, 0xF0] ++
  [0x90, 0x90, 0xF0, 0x10, 0x10] ++ [0xF0, 0x80, 0xF0, 0x10, 0xF0] ++ [0xF0, 0x80, 0xF0, 0x90, 0xF0] ++
  [0xF0, 0x10, 0x20, 0x40, 0x40]

/-- Glyphs "8" to "F" of the customary font (R44). PRESUMED (log 1), unsafe: as `glyphs1to7`. -/
def Config.glyphs8toF : List Byte :=
  [0xF0, 0x90, 0xF0, 0x90, 0xF0] ++ [0xF0, 0x90, 0xF0, 0x10, 0xF0] ++ [0xF0, 0x90, 0xF0, 0x90, 0x90] ++
  [0xE0, 0x90, 0xE0, 0x90, 0xE0] ++ [0xF0, 0x80, 0x80, 0x80, 0xF0] ++ [0xE0, 0x90, 0x90, 0x90, 0xE0] ++
  [0xF0, 0x80, 0xF0, 0x80, 0xF0] ++ [0xF0, 0x80, 0xF0, 0x80, 0x80]

/-- `FONT[0..79]` (R4, R44): glyph `g` is the bytes `5 * g` to `5 * g + 4`, the top row first. -/
def Config.font : List Byte := Config.glyph0 ++ Config.glyphs1to7 ++ Config.glyphs8toF

/-- FREE VALUE (log 3): the byte a `Step` request leaves open, by the number of draws made before it. The spec admits any
of the 256 values at each draw with no relation between draws (R27, R93). -/
opaque Config.randomByte : Nat → Byte

namespace Machine

/-- What can happen to CORE: the events of the CPU, the two timer processes and the host (R24 to R29, R189). The host reads
only pixels and `FAULT`, as R29 and R189 list; spec/60_exceptions.md R151 and R154 say that it can also read `PC`, `I`, `V[y]`
and the word at `PC` after a fault, for which there is no event: these values stand in State (DESIGN CHOICE, log 17). -/
inductive Event where
  /-- The host requests a step and supplies the random byte, or leaves it open (R25, R27; log 3). -/
  | step (rnd : Option Byte)
  /-- The delay-timer process ticks (spec/60_exceptions.md R160). -/
  | delayTick
  /-- The sound-timer process ticks (spec/60_exceptions.md R161). -/
  | soundTick
  /-- The host asks for the pixel of column `x`, row `y` (R28; log 12 on the widths). -/
  | query (x : BitVec 6) (y : BitVec 5)
  /-- The host reads `FAULT` (R29, R189). -/
  | readFault
  /-- The host resets CORE with a program image (R29). -/
  | reset (image : List Byte)
  deriving DecidableEq, Repr, Inhabited

end Machine

/-- FREE VALUE (log 2): what happens when no event waits in the queue, by the number of such events before it. The spec admits
any sequence of events, finite or infinite, in any order and any proportion (R24, spec/60_exceptions.md R162), so nothing
constrains this one: ticks may go on for ever, stop, or never come. -/
opaque Config.freeEvent : Nat → Machine.Event

end Sys2Proof
end

