-- ==== Sys2Proof/Machine/State.lean ====
section
/-! DEFINITION. The state of CORE (spec/10_state.md), the ways the model can stop, and the state after reset (R22). -/

namespace Sys2Proof.Machine

/-- The byte memory `MEM` (R19, R40), in one canonical form: the cells whose byte differs from what an unlisted address
reads as, by rising address (log 9). -/
abbrev Memory := List Host.Cell

/-- The framebuffer `FB[y][x]`: 32 rows of 64 cells, `true` is on (R18). -/
abbrev Framebuffer := Vector (Vector Bool 64) 32

/-- What CORE gives the outside (R28, R29, R163; log 4). -/
inductive Output where
  /-- The tone event of a sound tick, without payload (spec/60_exceptions.md R163). -/
  | tone
  /-- The answer to a query (R28). -/
  | pixel (x : BitVec 6) (y : BitVec 5) (on : Bool)
  /-- The answer to a read of `FAULT` (R29). -/
  | faultCode (code : BitVec 3)
  deriving DecidableEq, Repr

/-- The four faults of CORE (spec/60_exceptions.md R151); their codes are in Ops.lean. -/
inductive FaultCode where
  | fetchOutOfBounds
  | spriteOutOfBounds
  | stackUnderflow
  | stackOverflow
  deriving DecidableEq, Repr

/-- Everything the spec gives the machine (R10 to R19), then the model's own fields: inputs not yet served, the random
byte of the step, the index of the next free byte, and the outputs so far. -/
structure State where
  /-- `V[0]` to `V[15]` (R10); `V[15]` doubles as the flag register (R11). -/
  v       : Vector Byte 16
  /-- `PC` (R12). -/
  pc      : Word
  /-- `I` (R13). -/
  index   : Word
  /-- `DT` (R14). -/
  dt      : Byte
  /-- `ST` (R15). -/
  st      : Byte
  /-- `FAULT` (R16). -/
  fault   : BitVec 3
  /-- `SP`, the number of stack entries in use, 0 to 16 (R17; log 5). -/
  sp      : Fin 17
  /-- `STACK[0]` to `STACK[15]` (R17). -/
  stack   : Vector Word 16
  /-- `FB` (R18). -/
  fb      : Framebuffer
  /-- `MEM` (R19). -/
  mem     : Memory
  /-- The model's own (log 2): events already settled and not yet happened, oldest first (R24). -/
  events  : List Event
  /-- The model's own (log 2): how many free events have happened, the index of the next (R24). -/
  served  : Nat
  /-- The model's own (log 3): the `rnd` argument of the step in progress; absent where the request left it open (R27). -/
  rnd     : Option Byte
  /-- The model's own (log 3): how many draws were made, the index of the next free byte. -/
  draws   : Nat
  /-- The model's own (log 4): the outputs so far, oldest first. -/
  outputs : List Output
  deriving DecidableEq, Repr

/-- Why the machine stops with a fault outcome: never, so there is no constructor. The four faults of the spec are states
of CORE (`FAULT` is written and the core halts, spec/60_exceptions.md R152), and the model takes them as next states
(log 6). Safe: every event of the spec has the next state the spec gives it. -/
inductive Fault where
  deriving DecidableEq, Repr

/-- Why the machine refuses. -/
inductive Refusal where
  /-- Raised by an arm of `exec` whose instruction has no meaning yet: no arm is left so. Safe. -/
  | notModelled (mnemonic : String)
  /-- Raised by the event `reset image` for an image of more than 3584 bytes, which Reset does not accept
  (spec/20_memory.md R43; log 11). No instruction raises it. Safe. -/
  | imageTooLong
  deriving DecidableEq, Repr

/-- The outcome of a meaning. -/
abbrev Result := Host.Outcome State Fault Refusal

/-- The machine right after `Reset(image)` with the empty image (R22): `PC` at 0x200, everything else zero, memory holding
the font and zeros. A program comes in by the event `reset image` (log 9). The model's own fields: no event waiting, no free
event happened, no random byte given, nothing drawn, nothing put out (DESIGN CHOICE, logs 2 to 4). -/
def State.reset : State where
  v       := Vector.replicate 16 0#8
  pc      := 0x0200#16
  index   := 0x0000#16
  dt      := 0x00#8
  st      := 0x00#8
  fault   := 0#3
  sp      := 0
  stack   := Vector.replicate 16 0x0000#16
  fb      := Vector.replicate 32 (Vector.replicate 64 false)
  mem     := []
  events  := []
  served  := 0
  rnd     := none
  draws   := 0
  outputs := []

end Sys2Proof.Machine
end

