-- ==== Sys2Proof/Machine/Ops.lean ====
section
/-! DEFINITION. The operations the meanings share: memory, registers, stack, framebuffer, the fetch, taking a fault, the random
draw, outputs. -/

namespace Sys2Proof.Machine

/-! ### Memory (spec/20_memory.md) -/

/-- What an address no cell lists reads as: the content after a reset with the empty image, the font at 0x050 and 0x00
elsewhere (R41, R44, R22). An address above 0xFFF is never read (R47); for it the value is 0 (log 10). -/
def unlisted (a : Nat) : Byte :=
  if Config.fontBase ≤ a then Config.font.getD (a - Config.fontBase) 0 else 0

/-- `MemRead(a, 1)` (spec/00_scope.md R6). -/
def Memory.read : Memory → Nat → Byte
  | [], a => unlisted a
  | (k, b) :: rest, a => if k = a then b else Memory.read rest a

/-- The cell for an address and a byte, if the byte is not what the address reads as anyway. -/
def cellFor (a : Nat) (b : Byte) (rest : Memory) : Memory := if b = unlisted a then rest else (a, b) :: rest

/-- The write of one byte, keeping the canonical form. -/
def Memory.put : Memory → Nat → Byte → Memory
  | [], a, b => cellFor a b []
  | (k, c) :: rest, a, b =>
    if k < a then (k, c) :: Memory.put rest a b
    else if k = a then cellFor a b rest
    else cellFor a b ((k, c) :: rest)

/-- The write of one byte at an address that exists; no other address is ever written (R40, R47). Only the load at reset
writes memory (R48). -/
def Memory.write (m : Memory) (a : Nat) (b : Byte) : Memory := if a < Config.memSize then m.put a b else m

/-- Byte `k` of the list at address `a + k`. -/
def Memory.load (m : Memory) (a : Nat) : List Byte → Memory
  | [] => m
  | b :: bs => Memory.load (m.write a b) (a + 1) bs

/-- The cells from `lo` on are in canonical form: addresses strictly rising, all of the 4096 that exist, no byte equal to
what the address reads as unlisted. -/
def Memory.wfFrom : Nat → Memory → Bool
  | _, [] => true
  | lo, (a, b) :: rest => decide (lo ≤ a) && decide (a < Config.memSize) && (b != unlisted a) && Memory.wfFrom (a + 1) rest

/-- The canonical form of memory. -/
def Memory.wf (m : Memory) : Bool := Memory.wfFrom 0 m

/-- The byte of memory at an address. -/
def State.memRead (s : State) (a : Nat) : Byte := s.mem.read a

/-- Memory after a reset with an image: the image at 0x200, the font at 0x050, 0x00 elsewhere (R43, R44, R22). -/
def imageMemory (image : List Byte) : Memory := Memory.load [] Config.progBase image

/-! ### Registers (spec/10_state.md R10 to R15) -/

/-- `V[r]`. -/
def State.getV (s : State) (r : Nibble) : Byte := s.v[r.toNat]'r.isLt

/-- `V[r] <- b`. -/
def State.setV (s : State) (r : Nibble) (b : Byte) : State := { s with v := s.v.set r.toNat b r.isLt }

/-- The flag register: `VF` is `V[15]` (R11). -/
abbrev flagReg : Nibble := 0xF#4

/-- `PC <- a`. -/
def State.setPc (s : State) (a : Word) : State := { s with pc := a }

/-- `I <- a`. -/
def State.setIndex (s : State) (a : Word) : State := { s with index := a }

/-- `DT <- b`. -/
def State.setDt (s : State) (b : Byte) : State := { s with dt := b }

/-- `ST <- b`. -/
def State.setSt (s : State) (b : Byte) : State := { s with st := b }

/-! ### The call stack (R17) -/

/-- `STACK[SP] <- w`, `SP <- SP + 1`; nothing when all 16 entries are in use. -/
def State.push (s : State) (w : Word) : Option State :=
  if h : s.sp.val < 16 then some { s with stack := s.stack.set s.sp.val w h, sp := ⟨s.sp.val + 1, by omega⟩ } else none

/-- `SP <- SP - 1`, and the entry `STACK[SP]`, which is not erased; nothing when the stack is empty. -/
def State.pop (s : State) : Option (Word × State) :=
  if h : 0 < s.sp.val then
    some (s.stack[s.sp.val - 1]'(by omega), { s with sp := ⟨s.sp.val - 1, by omega⟩ })
  else none

/-! ### The framebuffer (R18) -/

/-- The display's `get(x, y)`; the caller keeps `x` below 64 and `y` below 32, and elsewhere it is off. -/
def Framebuffer.get (f : Framebuffer) (x y : Nat) : Bool :=
  if h : x < 64 ∧ y < 32 then (f[y]'h.2)[x]'h.1 else false

/-- The display's `set(x, y, value)`; the caller keeps `x` below 64 and `y` below 32, and elsewhere nothing is set. -/
def Framebuffer.set (f : Framebuffer) (x y : Nat) (on : Bool) : Framebuffer :=
  if h : x < 64 ∧ y < 32 then Vector.set f y ((f[y]'h.2).set x on h.1) h.2 else f

/-- The display's `clear()`: every cell off. -/
def Framebuffer.blank : Framebuffer := Vector.replicate 32 (Vector.replicate 64 false)

/-- `FB <- f`. -/
def State.setFb (s : State) (f : Framebuffer) : State := { s with fb := f }

/-- The pixel of column `x`, row `y`. -/
def State.pixel (s : State) (x y : Nat) : Bool := Framebuffer.get s.fb x y

/-! ### Fetch and faults -/

/-- The last address at which an instruction can be fetched: both its bytes lie in memory (R12, R25). -/
abbrev lastFetch : Word := 0x0FFE#16

/-- The two bytes at `PC` and `PC + 1`, in that order (R25, spec/20_memory.md R45). -/
def State.fetchBytes (s : State) : List Byte := [s.memRead s.pc.toNat, s.memRead (s.pc.toNat + 1)]

/-- The instruction word at `PC` (R25). -/
def State.fetchWord (s : State) : Word := wordOfBytes (s.memRead s.pc.toNat) (s.memRead (s.pc.toNat + 1))

/-- The state the execute phase starts from: `PC <- PC + 2`, and the step's random byte at the input (R25, R27). -/
def State.fetched (s : State) (rnd : Option Byte) : State := { s with pc := s.pc + 2#16, rnd := rnd }

/-- The state before the fetch, as the execute phase sees it: the `PC` advance is undone (spec/60_exceptions.md R152;
log 7). -/
def State.beforeFetch (s : State) : State := { s with pc := s.pc - 2#16 }

/-- The codes of the faults in the 3-bit register `FAULT` (spec/60_exceptions.md R151); 0 is `NONE`, 5 to 7 are not
produced. -/
def FaultCode.code : FaultCode → BitVec 3
  | .fetchOutOfBounds => 1#3
  | .spriteOutOfBounds => 2#3
  | .stackUnderflow => 3#3
  | .stackOverflow => 4#3

/-- Taking a fault: every piece of state has the value it had before the step, then `FAULT <- code`. No handler, no vector,
nothing saved; the core is halted, and there is no return (spec/60_exceptions.md R152, R154). -/
def raise (c : FaultCode) (before : State) : State := { before with fault := c.code }

/-- A fault of the execute phase: the fetch is undone and the fault is taken (R152). -/
def raiseInExecute (c : FaultCode) (s : State) : Result := .next (raise c s.beforeFetch)

/-- The core is halted (spec/60_exceptions.md R156). -/
def State.halted (s : State) : Bool := s.fault != 0#3

/-! ### Inputs and outputs -/

/-- `draw8()`: the byte the host supplied with the step, or where it left it open a free value (spec/00_scope.md R6,
spec/10_state.md R27; log 3). -/
def State.draw8 (s : State) : Byte :=
  match s.rnd with
  | some b => b
  | none => Config.randomByte s.draws

/-- The draw was made: the next one is fresh (R27; log 3). -/
def State.drawn (s : State) : State := { s with draws := s.draws + 1 }

/-- One more output (log 4). -/
def State.emit (s : State) (o : Output) : State := { s with outputs := s.outputs ++ [o] }

end Sys2Proof.Machine
end

