-- ==== Sys2Proof/Machine/Flags.lean ====
section
/-! DEFINITION. The flag values, each 0 or 1 in the whole 8-bit register `VF` (spec/10_state.md R11). The collision flag is
computed by the pixel engine in Display.lean. -/

namespace Sys2Proof.Machine

/-- A flag as the byte written to `VF`: 0x01 or 0x00. -/
def flagByte (b : Bool) : Byte := if b then 1#8 else 0#8

/-- The carry out of bit 7: `1 if a + b > 255 else 0` (spec/42_alu.md R104). -/
def carryFlag (a b : Byte) : Byte := flagByte (decide (255 < a.toNat + b.toNat))

/-- Not borrow: `1 if a >= b else 0` (R105). -/
def notBorrowFlag (a b : Byte) : Byte := flagByte (decide (b.toNat ≤ a.toNat))

/-- The bit shifted out at the bottom, `b[0]` (R106). -/
def shiftedOutLow (b : Byte) : Byte := flagByte (b.getLsbD 0)

/-- The bit shifted out at the top, `b[7]` (R107). -/
def shiftedOutHigh (b : Byte) : Byte := flagByte (b.getLsbD 7)

end Sys2Proof.Machine
end

