-- ==== Sys2Proof/Machine/Operands.lean ====
section
/-! DEFINITION. How an instruction's operands become values: the immediates (spec/30_encoding.md R63), the jump target with
offset (R83), and the position, size and source of a sprite (spec/43_display.md R121). -/

namespace Sys2Proof.Machine

/-- `zext_16(nnn)` (R63). -/
def zext16 (nnn : Addr) : Word := nnn.setWidth 16

/-- The target of `JP V0, nnn`: `zext_16(nnn) + zext_16(V[0])`, with no mask (R83). -/
def State.offsetTarget (s : State) (nnn : Addr) : Word := zext16 nnn + (s.getV 0x0#4).setWidth 16

/-- `x0 <- V[x] & 63`, the start column (R121). -/
def State.startColumn (s : State) (x : Nibble) : Nat := (s.getV x &&& 63#8).toNat

/-- `y0 <- V[y] & 31`, the start row (R121). -/
def State.startRow (s : State) (y : Nibble) : Nat := (s.getV y &&& 31#8).toNat

/-- `rows <- min(n, 32 - y0)`, the rows that fall on the display (R121). -/
def State.drawnRows (s : State) (y n : Nibble) : Nat := min n.toNat (32 - s.startRow y)

/-- A row that would be drawn lies above address 0xFFF: `rows > 0 and I + rows - 1 > 0x0FFF` (R121, R151). The sum does not
wrap (R109; log 10). -/
def State.spriteOutside (s : State) (y n : Nibble) : Bool :=
  decide (0 < s.drawnRows y n) && decide (0x0FFF < s.index.toNat + s.drawnRows y n - 1)

/-- The byte of sprite row `r`: `MemRead(I + r, 1)` (R121). -/
def State.spriteByte (s : State) (r : Nat) : Byte := s.memRead (s.index.toNat + r)

end Sys2Proof.Machine
end

