-- ==== Sys2Proof/Machine/Alu.lean ====
section
/-! DEFINITION. The register-register instructions (spec/42_alu.md R100 to R110): both operands are read first, then the writes
follow in the order the rule gives, which settles the forms that name register 15 (R110). -/

namespace Sys2Proof.Machine

/-- `LD Vx, Vy`: `V[x] <- V[y]` (R100). -/
def execLdVxVy (x y : Nibble) (s : State) : Result := .next (s.setV x (s.getV y))

/-- `OR Vx, Vy`: `V[x] <- a | b`, no flag (R101). -/
def execOrVxVy (x y : Nibble) (s : State) : Result := .next (s.setV x (s.getV x ||| s.getV y))

/-- `AND Vx, Vy`: `V[x] <- a & b`, no flag (R102). -/
def execAndVxVy (x y : Nibble) (s : State) : Result := .next (s.setV x (s.getV x &&& s.getV y))

/-- `XOR Vx, Vy`: `V[x] <- a ^ b`, no flag (R103). -/
def execXorVxVy (x y : Nibble) (s : State) : Result := .next (s.setV x (s.getV x ^^^ s.getV y))

/-- `ADD Vx, Vy`: `VF <- carry`, then `V[x] <- (a + b) mod 256` (R104). -/
def execAddVxVy (x y : Nibble) (s : State) : Result :=
  let a := s.getV x
  let b := s.getV y
  .next ((s.setV flagReg (carryFlag a b)).setV x (a + b))

/-- `SUB Vx, Vy`: `VF <- not borrow`, then `V[x] <- (a - b) mod 256` (R105). -/
def execSubVxVy (x y : Nibble) (s : State) : Result :=
  let a := s.getV x
  let b := s.getV y
  .next ((s.setV flagReg (notBorrowFlag a b)).setV x (a - b))

/-- `SHR Vx, Vy`: `V[x] <- b`, then `V[x] <- b >> 1`, then `VF <- b[0]` (R106). -/
def execShrVxVy (x y : Nibble) (s : State) : Result :=
  let b := s.getV y
  .next (((s.setV x b).setV x (b >>> 1)).setV flagReg (shiftedOutLow b))

/-- `SHL Vx, Vy`: `V[x] <- b`, then `V[x] <- (b << 1) mod 256`, then `VF <- b[7]` (R107). -/
def execShlVxVy (x y : Nibble) (s : State) : Result :=
  let b := s.getV y
  .next (((s.setV x b).setV x (b <<< 1)).setV flagReg (shiftedOutHigh b))

end Sys2Proof.Machine
end

