-- ==== Sys2Proof/Machine/ControlFlow.lean ====
section
/-! DEFINITION. The control-transfer instructions (spec/40_control_flow.md R80 to R83). `PC` is already advanced by the fetch. -/

namespace Sys2Proof.Machine

/-- `RET`: pop the return address into `PC`, `STACK_UNDERFLOW` when the stack is empty (R80). -/
def execRet (s : State) : Result :=
  match s.pop with
  | some (target, t) => .next (t.setPc target)
  | none => raiseInExecute .stackUnderflow s

/-- `JP nnn`: `PC <- zext_16(nnn)` (R81). -/
def execJp (nnn : Addr) (s : State) : Result := .next (s.setPc (zext16 nnn))

/-- `CALL nnn`: push the advanced `PC`, `PC <- zext_16(nnn)`, `STACK_OVERFLOW` when the stack is full (R82). -/
def execCall (nnn : Addr) (s : State) : Result :=
  match s.push s.pc with
  | some t => .next (t.setPc (zext16 nnn))
  | none => raiseInExecute .stackOverflow s

/-- `JP V0, nnn`: `PC <- zext_16(nnn) + zext_16(V[0])` (R83). -/
def execJpV0 (nnn : Addr) (s : State) : Result := .next (s.setPc (s.offsetTarget nnn))

end Sys2Proof.Machine
end

