-- ==== Sys2Proof/Machine/Display.lean ====
section
/-! DEFINITION. The display instructions and the sprite-XOR pixel engine (spec/43_display.md R120 to R122). -/

namespace Sys2Proof.Machine

/-- What the pixel engine carries from cell to cell: the framebuffer, and whether a sprite bit of 1 has met a pixel that
was on. -/
abbrev Canvas := Framebuffer × Bool

/-- One sprite bit at column `x0 + c` of row `y`: nothing past the right edge, nothing for a bit of 0; a bit of 1 turns an
on pixel off and is a collision, and an off pixel on (R121). -/
def drawBit (b : Byte) (x0 y : Nat) (p : Canvas) (c : Nat) : Canvas :=
  if 63 < x0 + c then p
  else if b.getLsbD (7 - c) then
    if Framebuffer.get p.1 (x0 + c) y then (Framebuffer.set p.1 (x0 + c) y false, true)
    else (Framebuffer.set p.1 (x0 + c) y true, p.2)
  else p

/-- One sprite row: `for c in 0 .. 7`, bit 7 leftmost (R121). -/
def drawRow (b : Byte) (x0 y : Nat) (p : Canvas) : Canvas := (List.range 8).foldl (drawBit b x0 y) p

/-- The whole sprite: `for r in 0 .. rows - 1`, row `r` from the byte at `I + r` to row `y0 + r` (R121). -/
def State.drawSprite (s : State) (x0 y0 rows : Nat) : Canvas :=
  (List.range rows).foldl (fun p r => drawRow (s.spriteByte r) x0 (y0 + r) p) (s.fb, false)

/-- `CLS`: every cell off (R120). -/
def execCls (s : State) : Result := .next (s.setFb Framebuffer.blank)

/-- `DRW Vx, Vy, n`: the bounds check over the rows that will be read, before any write; then draw, and `VF` is 1 on any
collision and else 0 (R121). -/
def execDrw (x y n : Nibble) (s : State) : Result :=
  if s.spriteOutside y n then raiseInExecute .spriteOutOfBounds s
  else
    let p := s.drawSprite (s.startColumn x) (s.startRow y) (s.drawnRows y n)
    .next ((s.setFb p.1).setV flagReg (flagByte p.2))

end Sys2Proof.Machine
end

