-- ==== Sys2Proof/Machine/Immediate.lean ====
section
/-! DEFINITION. The immediate, index and random instructions (spec/41_immediate_index_random.md R90 to R93). -/

namespace Sys2Proof.Machine

/-- `LD Vx, kk`: `V[x] <- kk` (R90). -/
def execLdVxKk (x : Nibble) (kk : Byte) (s : State) : Result := .next (s.setV x kk)

/-- `ADD Vx, kk`: `V[x] <- (V[x] + kk) mod 256`, no flag (R91). -/
def execAddVxKk (x : Nibble) (kk : Byte) (s : State) : Result := .next (s.setV x (s.getV x + kk))

/-- `LD I, nnn`: `I <- zext_16(nnn)` (R92). -/
def execLdI (nnn : Addr) (s : State) : Result := .next (s.setIndex (zext16 nnn))

/-- `RND Vx, kk`: `V[x] <- draw8() & kk` (R93). -/
def execRnd (x : Nibble) (kk : Byte) (s : State) : Result := .next (s.drawn.setV x (s.draw8 &&& kk))

end Sys2Proof.Machine
end

