-- ==== Sys2Proof/Machine/Timers.lean ====
section
/-! DEFINITION. The timer-access instructions (spec/44_timer_access.md R130 to R132) and the tick events of the two timer agents
(spec/60_exceptions.md R160, R161). -/

namespace Sys2Proof.Machine

/-- `LD Vx, DT`: `V[x] <- DT` (R130). -/
def execLdVxDt (x : Nibble) (s : State) : Result := .next (s.setV x s.dt)

/-- `LD DT, Vx`: `DT <- V[x]` (R131). -/
def execLdDtVx (x : Nibble) (s : State) : Result := .next (s.setDt (s.getV x))

/-- `LD ST, Vx`: `ST <- V[x]`; the write itself emits no tone (R132). -/
def execLdStVx (x : Nibble) (s : State) : Result := .next (s.setSt (s.getV x))

/-- `DelayTick`: `if DT > 0: DT <- DT - 1` (R160). -/
def State.delayTick (s : State) : State := if 0#8 < s.dt then s.setDt (s.dt - 1#8) else s

/-- `SoundTick`: `if ST > 0: emit Tone, ST <- ST - 1` (R161, R163). -/
def State.soundTick (s : State) : State := if 0#8 < s.st then (s.emit .tone).setSt (s.st - 1#8) else s

end Sys2Proof.Machine
end

