-- ==== Sys2Proof/Machine/Unrecognised.lean ====
section
/-! DEFINITION. The unrecognised words: each is a no-operation, `PC` was advanced by 2 in the fetch and nothing else happens
(spec/45_unrecognised.md R140; the sets are those of spec/30_encoding.md R67). -/

namespace Sys2Proof.Machine

/-- The no-operation (R140). -/
def noOperation (s : State) : Result := .next s

/-- `NOP`, a word 0..., but 00E0 and 00EE (R140). -/
def execNop0 (s : State) : Result := noOperation s

/-- `NOP`, a word 3... (R140). -/
def execNop3 (s : State) : Result := noOperation s

/-- `NOP`, a word 4... (R140). -/
def execNop4 (s : State) : Result := noOperation s

/-- `NOP`, a word 5... (R140). -/
def execNop5 (s : State) : Result := noOperation s

/-- `NOP`, a word 9... (R140). -/
def execNop9 (s : State) : Result := noOperation s

/-- `NOP`, a word E... (R140). -/
def execNopE (s : State) : Result := noOperation s

/-- `NOP`, a word 8..7 (R140). -/
def execNop8x7 (s : State) : Result := noOperation s

/-- `NOP`, a word 8..8 (R140). -/
def execNop8x8 (s : State) : Result := noOperation s

/-- `NOP`, a word 8..9 (R140). -/
def execNop8x9 (s : State) : Result := noOperation s

/-- `NOP`, a word 8..A (R140). -/
def execNop8xA (s : State) : Result := noOperation s

/-- `NOP`, a word 8..B (R140). -/
def execNop8xB (s : State) : Result := noOperation s

/-- `NOP`, a word 8..C (R140). -/
def execNop8xC (s : State) : Result := noOperation s

/-- `NOP`, a word 8..D (R140). -/
def execNop8xD (s : State) : Result := noOperation s

/-- `NOP`, a word 8..F (R140). -/
def execNop8xF (s : State) : Result := noOperation s

/-- `NOP`, a word F..., but Fx07, Fx15 and Fx18 (R140). -/
def execNopF (s : State) : Result := noOperation s

end Sys2Proof.Machine
end

