-- ==== Sys2Proof/Machine/Dispatch.lean ====
section
/-! DEFINITION. The execute phase: one arm per constructor of Instr (spec/10_state.md R25, spec/30_encoding.md R64). -/

namespace Sys2Proof.Machine

def exec (i : Instr) (s : State) : Host.Outcome State Fault Refusal :=
  match i with
  | .cls => Sys2Proof.Machine.execCls s
  | .ret => Sys2Proof.Machine.execRet s
  | .jp nnn => Sys2Proof.Machine.execJp nnn s
  | .call nnn => Sys2Proof.Machine.execCall nnn s
  | .ldVxKk x kk => Sys2Proof.Machine.execLdVxKk x kk s
  | .addVxKk x kk => Sys2Proof.Machine.execAddVxKk x kk s
  | .ldVxVy x y => Sys2Proof.Machine.execLdVxVy x y s
  | .orVxVy x y => Sys2Proof.Machine.execOrVxVy x y s
  | .andVxVy x y => Sys2Proof.Machine.execAndVxVy x y s
  | .xorVxVy x y => Sys2Proof.Machine.execXorVxVy x y s
  | .addVxVy x y => Sys2Proof.Machine.execAddVxVy x y s
  | .subVxVy x y => Sys2Proof.Machine.execSubVxVy x y s
  | .shrVxVy x y => Sys2Proof.Machine.execShrVxVy x y s
  | .shlVxVy x y => Sys2Proof.Machine.execShlVxVy x y s
  | .ldI nnn => Sys2Proof.Machine.execLdI nnn s
  | .jpV0 nnn => Sys2Proof.Machine.execJpV0 nnn s
  | .rnd x kk => Sys2Proof.Machine.execRnd x kk s
  | .drw x y n => Sys2Proof.Machine.execDrw x y n s
  | .ldVxDt x => Sys2Proof.Machine.execLdVxDt x s
  | .ldDtVx x => Sys2Proof.Machine.execLdDtVx x s
  | .ldStVx x => Sys2Proof.Machine.execLdStVx x s
  | .nop0 _ => Sys2Proof.Machine.execNop0 s
  | .nop3 _ => Sys2Proof.Machine.execNop3 s
  | .nop4 _ => Sys2Proof.Machine.execNop4 s
  | .nop5 _ => Sys2Proof.Machine.execNop5 s
  | .nop9 _ => Sys2Proof.Machine.execNop9 s
  | .nopE _ => Sys2Proof.Machine.execNopE s
  | .nop8x7 _ => Sys2Proof.Machine.execNop8x7 s
  | .nop8x8 _ => Sys2Proof.Machine.execNop8x8 s
  | .nop8x9 _ => Sys2Proof.Machine.execNop8x9 s
  | .nop8xA _ => Sys2Proof.Machine.execNop8xA s
  | .nop8xB _ => Sys2Proof.Machine.execNop8xB s
  | .nop8xC _ => Sys2Proof.Machine.execNop8xC s
  | .nop8xD _ => Sys2Proof.Machine.execNop8xD s
  | .nop8xF _ => Sys2Proof.Machine.execNop8xF s
  | .nopF _ => Sys2Proof.Machine.execNopF s

end Sys2Proof.Machine
end

