-- ==== Sys2Proof/Machine/Events.lean ====
section
/-! DEFINITION. The events of the spec (spec/10_state.md R24 to R29): the CPU's step, the ticks, the query, the read of `FAULT`,
the reset. Each is atomic, and each lands between steps. -/

namespace Sys2Proof.Machine

/-- `Step(rnd)`: nothing on a halted core; `FETCH_OUT_OF_BOUNDS` where the two bytes do not both lie in memory; else fetch,
decode and execute (R25). -/
def cpuStep (rnd : Option Byte) (s : State) : Result :=
  if s.halted then .next s
  else if lastFetch < s.pc then .next (raise .fetchOutOfBounds s)
  else exec (decodeWord s.fetchWord) (s.fetched rnd)

/-- `Query(x, y)` returns `FB[y][x]` and changes nothing (R28). -/
def State.query (s : State) (x : BitVec 6) (y : BitVec 5) : State := s.emit (.pixel x y (s.pixel x.toNat y.toNat))

/-- The host reads `FAULT`, which changes nothing (R29, R189). -/
def State.readFault (s : State) : State := s.emit (.faultCode s.fault)

/-- The whole state at the values of R22 with an image in memory; what is outside CORE stays: the events to come, the
outputs made, the counts of draws and of free events (log 14). -/
def State.resetWith (s : State) (image : List Byte) : State :=
  { State.reset with mem := imageMemory image, events := s.events, served := s.served, draws := s.draws, outputs := s.outputs }

/-- `Reset(image)`, for 0 to 3584 bytes; a longer image is not accepted (R29, spec/20_memory.md R43; log 11). -/
def resetEvent (image : List Byte) (s : State) : Result :=
  if image.length ≤ Config.progMax then .next (s.resetWith image) else .refused .imageTooLong

/-- One event happens. -/
def deliver (e : Event) (s : State) : Result :=
  match e with
  | .step rnd => cpuStep rnd s
  | .delayTick => .next s.delayTick
  | .soundTick => .next s.soundTick
  | .query x y => .next (s.query x y)
  | .readFault => .next s.readFault
  | .reset image => resetEvent image s

/-- The event that happens next: the oldest of the queue, or with none waiting a free one (R24; log 2). -/
def State.upcoming (s : State) : Event :=
  match s.events with
  | [] => Config.freeEvent s.served
  | e :: _ => e

/-- The state in which that event happens: it is off the queue, or the free event is counted (log 2). -/
def State.taken (s : State) : State :=
  match s.events with
  | [] => { s with served := s.served + 1 }
  | _ :: rest => { s with events := rest }

/-- The next event happens (R24). -/
def nextEvent (s : State) : Result := deliver s.upcoming s.taken

/-- The state in which the next event is a step that fetches the given word at `PC`: the word stands there, high byte first,
the step is the one event in the queue, its random byte left open, and the core is not halted (log 15). -/
def State.withWordAtPc (s : State) (w : Word) : State :=
  { s with
    mem := (s.mem.write s.pc.toNat (highByte w)).write (s.pc.toNat + 1) (lowByte w)
    events := [.step none]
    fault := 0#3 }

end Sys2Proof.Machine
end

