-- ==== Sys2Proof/Machine/Step.lean ====
section
/-! DEFINITION. One step of the machine is one event (spec/10_state.md R24), and the host's way to place an instruction. -/

namespace Sys2Proof.Machine

/-- One event: the oldest of the queue, or a free one when the queue is empty (R24; log 2). -/
def step (s : State) : Host.Outcome State Fault Refusal := nextEvent s

/-- The instruction whose bits are `w`, stored where the next step fetches (log 15). -/
def State.withFetchWord (s : State) (nbits w : Nat) : State := s.withWordAtPc (tableWord nbits w)

end Sys2Proof.Machine
end

