-- ==== Sys2Proof/Safety.lean ====
section
/-! DEFINITION. The terms claims about CORE are made in: the invariant of R23, the end of a run (R188), the frame of an
instruction, which instruction reads and writes what (R10 to R18). -/

namespace Sys2Proof.Machine

/-! ### The invariant (spec/10_state.md R23) -/

/-- What holds in every state reachable from reset (R23), with the canonical form of memory (log 9). `SP` is at most 16 by
its type (log 5). -/
structure State.Inv (s : State) : Prop where
  /-- `I <= 0x0FFF` (R13). -/
  index_le : s.index.toNat ≤ 0x0FFF
  /-- `PC <= 0x10FE` (R83). -/
  pc_le    : s.pc.toNat ≤ 0x10FE
  /-- `FAULT` is in 0 to 4 (R16). -/
  fault_le : s.fault.toNat ≤ 4
  /-- Every stack entry in use is at most 0x1000: it is a `PC` after a fetch (R17). -/
  stack_le : ∀ k, k < s.sp.val → ∀ h : k < 16, (s.stack[k]'h).toNat ≤ 0x1000
  /-- Memory is in canonical form. -/
  mem_wf   : s.mem.wf = true

/-! ### The end of a run (spec/70_reset_and_hazards.md R188) -/

/-- A run has completed: the core is at a self-jump. The timers and the display are not spoken of. -/
def State.completed (s : State) : Prop :=
  s.fault = 0#3 ∧ s.pc.toNat ≤ 0x0FFE ∧ decode s.fetchBytes = .ok (.jp (s.pc.setWidth 12))

/-- A run has failed: the core is halted by a fault. -/
def State.failed (s : State) : Prop := s.fault ≠ 0#3

/-- `k` steps of the machine, stopping where a step has no next state. -/
def steps : Nat → State → Result
  | 0, s => .next s
  | k + 1, s =>
    match step s with
    | .next t => steps k t
    | .fault r => .fault r
    | .refused r => .refused r

/-! ### Frames -/

/-- The parts of the state other than the general registers. -/
inductive Part where
  | pc | index | dt | st | fault | sp | stack | display | memory | events | served | rnd | draws | outputs
  deriving DecidableEq, Repr

/-- A part of the state is the same in both states: the display cell by cell, memory byte by byte. -/
def Part.Same : Part → State → State → Prop
  | .pc, s, t => t.pc = s.pc
  | .index, s, t => t.index = s.index
  | .dt, s, t => t.dt = s.dt
  | .st, s, t => t.st = s.st
  | .fault, s, t => t.fault = s.fault
  | .sp, s, t => t.sp = s.sp
  | .stack, s, t => t.stack = s.stack
  | .display, s, t => ∀ x y, t.pixel x y = s.pixel x y
  | .memory, s, t => ∀ a, t.memRead a = s.memRead a
  | .events, s, t => t.events = s.events
  | .served, s, t => t.served = s.served
  | .rnd, s, t => t.rnd = s.rnd
  | .draws, s, t => t.draws = s.draws
  | .outputs, s, t => t.outputs = s.outputs

/-- From `s` to `t` only the general registers `rs` and the parts `ps` may have changed. -/
def OnlyChanged (rs : List Nibble) (ps : List Part) (s t : State) : Prop :=
  (∀ r, r ∉ rs → t.getV r = s.getV r) ∧ ∀ p, p ∉ ps → p.Same s t

/-! ### Events -/

/-- The next event of `s` is a step of the CPU with that random byte, open where it is absent. `s0` is the state the step acts
on: `s` with that event taken (log 2). -/
def StepRequested (s : State) (rnd : Option Byte) (s0 : State) : Prop := s.upcoming = .step rnd ∧ s0 = s.taken

/-- The next event of `s` is a reset. -/
def ResetWaiting (s : State) : Prop := ∃ image, s.upcoming = .reset image

/-- The history ahead of `s`, without end: event `k` from now, those of the queue first and then the free ones (R24; log
2). -/
def State.eventAt (s : State) (k : Nat) : Event := s.events.getD k (Config.freeEvent (s.served + (k - s.events.length)))

/-! ### Who reads and writes what (R10, R12 to R18) -/

/-- The general registers an instruction reads, by the table of R10. -/
def regsRead : Instr → List Nibble
  | .addVxKk x _ => [x]
  | .ldVxVy _ y => [y]
  | .orVxVy x y | .andVxVy x y | .xorVxVy x y => [x, y]
  | .addVxVy x y | .subVxVy x y => [x, y]
  | .shrVxVy _ y | .shlVxVy _ y => [y]
  | .jpV0 _ => [0x0#4]
  | .drw x y _ => [x, y]
  | .ldDtVx x | .ldStVx x => [x]
  | .cls | .ret | .jp _ | .call _ | .ldVxKk _ _ | .ldI _ | .rnd _ _ | .ldVxDt _ => []
  | .nop0 _ | .nop3 _ | .nop4 _ | .nop5 _ | .nop9 _ | .nopE _ => []
  | .nop8x7 _ | .nop8x8 _ | .nop8x9 _ | .nop8xA _ | .nop8xB _ | .nop8xC _ | .nop8xD _ | .nop8xF _ | .nopF _ => []

/-- The general registers an instruction writes, by the table of R10. -/
def regsWritten : Instr → List Nibble
  | .ldVxKk x _ | .addVxKk x _ | .ldVxVy x _ | .orVxVy x _ | .andVxVy x _ | .xorVxVy x _ | .rnd x _ | .ldVxDt x => [x]
  | .addVxVy x _ | .subVxVy x _ | .shrVxVy x _ | .shlVxVy x _ => [x, flagReg]
  | .drw _ _ _ => [flagReg]
  | .cls | .ret | .jp _ | .call _ | .ldI _ | .jpV0 _ | .ldDtVx _ | .ldStVx _ => []
  | .nop0 _ | .nop3 _ | .nop4 _ | .nop5 _ | .nop9 _ | .nopE _ => []
  | .nop8x7 _ | .nop8x8 _ | .nop8x9 _ | .nop8xA _ | .nop8xB _ | .nop8xC _ | .nop8xD _ | .nop8xF _ | .nopF _ => []

/-- The parts of the state an instruction that raises no fault may change (R12 to R18; `draws` is the model's own, log 3). -/
def partsWritten : Instr → List Part
  | .cls => [.display]
  | .ret => [.pc, .sp]
  | .jp _ | .jpV0 _ => [.pc]
  | .call _ => [.pc, .sp, .stack]
  | .ldI _ => [.index]
  | .rnd _ _ => [.draws]
  | .drw _ _ _ => [.display]
  | .ldDtVx _ => [.dt]
  | .ldStVx _ => [.st]
  | .ldVxKk _ _ | .addVxKk _ _ | .ldVxVy _ _ | .orVxVy _ _ | .andVxVy _ _ | .xorVxVy _ _ => []
  | .addVxVy _ _ | .subVxVy _ _ | .shrVxVy _ _ | .shlVxVy _ _ | .ldVxDt _ => []
  | .nop0 _ | .nop3 _ | .nop4 _ | .nop5 _ | .nop9 _ | .nopE _ => []
  | .nop8x7 _ | .nop8x8 _ | .nop8x9 _ | .nop8xA _ | .nop8xB _ | .nop8xC _ | .nop8xD _ | .nop8xF _ | .nopF _ => []

/-- The instruction touches a timer: the three accesses of R130 to R132. -/
def touchesTimer : Instr → Bool
  | .ldVxDt _ | .ldDtVx _ | .ldStVx _ => true
  | .cls | .ret | .jp _ | .call _ | .ldVxKk _ _ | .addVxKk _ _ | .ldI _ | .jpV0 _ | .rnd _ _ | .drw _ _ _ => false
  | .ldVxVy _ _ | .orVxVy _ _ | .andVxVy _ _ | .xorVxVy _ _ => false
  | .addVxVy _ _ | .subVxVy _ _ | .shrVxVy _ _ | .shlVxVy _ _ => false
  | .nop0 _ | .nop3 _ | .nop4 _ | .nop5 _ | .nop9 _ | .nopE _ => false
  | .nop8x7 _ | .nop8x8 _ | .nop8x9 _ | .nop8xA _ | .nop8xB _ | .nop8xC _ | .nop8xD _ | .nop8xF _ | .nopF _ => false

end Sys2Proof.Machine
end

