-- ==== Sys2Proof/Certificates/Slice0/Obligations.lean ====
section
/-! DEFINITION. The statements about CORE, for the provers. `OnlyChanged rs ps s t` says that from `s` to `t` only the general
registers `rs` and the parts `ps` may have changed (Sys2Proof/Safety.lean). -/

open Sys2Proof Sys2Proof.Machine

/-! ### Encoding -/

/-- R62, R64, R66, R67: decoding the word of a well-formed instruction gives the instruction back, every operand at every
value; so do its two bytes, the high byte at the lower address. -/
def Obligations.DecodeEncodeRoundTrip : Prop :=
  ∀ i : Instr, i.wf = true → decodeWord (encode i) = i ∧ decode (encodeBytes i) = .ok i

/-- R60, R67: every word has one meaning, a well-formed instruction whose word it is. -/
def Obligations.EncodeDecodeRoundTrip : Prop :=
  ∀ w : Word, (decodeWord w).wf = true ∧ encode (decodeWord w) = w

/-- R64, R66, R67 with the `order` keys of the opcode table: the decoder gives every word to the first row of the table
whose mask and pattern select it. -/
def Obligations.DecoderFollowsOpcodeTable : Prop :=
  ∀ w : Word, rowOfWord w = some (decodeWord w).rowOrder

/-- R64: the conditions of the 21 instruction forms are pairwise exclusive. -/
def Obligations.InstructionFormsExclusive : Prop :=
  ∀ w : Word, ∀ r ∈ formRows, ∀ r' ∈ formRows, r.selects w = true → r'.selects w = true → r = r'

/-- R61: the raw parts of a word, from its two bytes. -/
def Obligations.RawPartsOfWord : Prop :=
  (∀ high low : Byte,
    (fieldOp (wordOfBytes high low)).toNat = high.toNat / 16 ∧
    (fieldX (wordOfBytes high low)).toNat = high.toNat % 16 ∧
    (fieldY (wordOfBytes high low)).toNat = low.toNat / 16 ∧
    (fieldN (wordOfBytes high low)).toNat = low.toNat % 16 ∧
    (wordOfBytes high low).toNat = high.toNat * 256 + low.toNat) ∧
  (wordOfBytes 0xAB#8 0xCD#8 = 0xABCD#16 ∧ fieldOp 0xABCD#16 = 0xA#4 ∧ fieldX 0xABCD#16 = 0xB#4 ∧
    fieldY 0xABCD#16 = 0xC#4 ∧ fieldN 0xABCD#16 = 0xD#4)

/-- R66, R67: words written out from the table's encodings decode to the instructions they stand for. -/
def Obligations.WrittenOutWordsDecode : Prop :=
  decodeWord 0b0000000011100000#16 = .cls ∧
  decodeWord 0b0010000100100011#16 = .call 0x123#12 ∧
  decodeWord 0b0111000100010001#16 = .addVxKk 0x1#4 0x11#8 ∧
  decodeWord 0b1000000100100101#16 = .subVxVy 0x1#4 0x2#4 ∧
  decodeWord 0b1010000001010000#16 = .ldI 0x050#12 ∧
  decodeWord 0b1101000000010101#16 = .drw 0x0#4 0x1#4 0x5#4 ∧
  decodeWord 0b1111001000010101#16 = .ldDtVx 0x2#4 ∧
  decodeWord 0b1000000100100111#16 = .nop8x7 0x12#8

/-! ### The step -/

/-- R25: a requested step on a running core whose two bytes at `PC` and `PC + 1` lie in memory is the execute phase of the
instruction they decode to, on the state with `PC` advanced by 2. The model's own part (logs 2 and 3): the request is taken
and its random byte, if any, stands at the input. -/
def Obligations.StepRunsDecodedInstruction : Prop :=
  ∀ (s : State) (rnd : Option Byte) (i : Instr), s.upcoming = .step rnd → s.fault = 0#3 → s.pc.toNat ≤ 0x0FFE →
    decode [s.memRead s.pc.toNat, s.memRead (s.pc.toNat + 1)] = .ok i →
    step s = exec i { s.taken with pc := s.pc + 2#16, rnd := rnd }

/-- R24, R26: every step of the machine is one event on the state in which it is taken, the oldest of the queue, or with none
waiting a free one, which nothing constrains (log 2, DESIGN CHOICE). -/
def Obligations.EventsHappenInOrder : Prop :=
  ∀ s : State, step s = deliver s.upcoming s.taken ∧
    (∀ e rest, s.events = e :: rest → s.upcoming = e ∧ s.taken = { s with events := rest }) ∧
    (s.events = [] → s.upcoming = Config.freeEvent s.served ∧ s.taken = { s with served := s.served + 1 })

/-- R24: the history ahead of a state happens event by event and does not end: after any number `k` of steps, none of which
is a reset with more than 3584 bytes, there is a state, the event that happens next is event `k`, and the rest of the history
is ahead. The queue and the free events after it are the model's own form of a history (log 2, DESIGN CHOICE). -/
def Obligations.HistoryAheadHappens : Prop :=
  ∀ (k : Nat) (s : State), (∀ j image, j < k → s.eventAt j = .reset image → image.length ≤ 3584) →
    ∃ t, steps k s = .next t ∧ t.upcoming = s.eventAt k ∧ ∀ j, t.eventAt j = s.eventAt (k + j)

/-- R151, R152, R153: when a step raises each of the four faults and no other, and that `PC` then is the address the step
started at. Rows counts the sprite rows that would be drawn. The codes are the spec's (its decisions D2, D3, D5, D6). -/
def Obligations.FaultsExactlyOnTheirConditions : Prop :=
  ∀ (s s0 t : State) (rnd : Option Byte), StepRequested s rnd s0 → s.fault = 0#3 → step s = .next t →
    (t.fault = 1#3 ↔ 0x0FFE < s.pc.toNat) ∧
    (t.fault = 2#3 ↔ s.pc.toNat ≤ 0x0FFE ∧ ∃ x y n, decode s.fetchBytes = .ok (.drw x y n) ∧
      0 < min n.toNat (32 - (s.getV y &&& 31#8).toNat) ∧
      0x0FFF < s.index.toNat + min n.toNat (32 - (s.getV y &&& 31#8).toNat) - 1) ∧
    (t.fault = 3#3 ↔ s.pc.toNat ≤ 0x0FFE ∧ decode s.fetchBytes = .ok .ret ∧ s.sp.val = 0) ∧
    (t.fault = 4#3 ↔ s.pc.toNat ≤ 0x0FFE ∧ (∃ nnn, decode s.fetchBytes = .ok (.call nnn)) ∧ s.sp.val = 16) ∧
    t.fault.toNat ≤ 4 ∧ (t.fault ≠ 0#3 → t.pc = s.pc)

/-- R152: a faulting step changes nothing but `FAULT` (the request was taken and the random byte of the step stands at
the input: the model's own fields, logs 2 and 3); a step on a halted core changes nothing; no event but a step of the CPU
and a reset changes `FAULT`. -/
def Obligations.FaultEntryIsPreciseAndHalts : Prop :=
  (∀ (s s0 t : State) (rnd : Option Byte), StepRequested s rnd s0 → s.fault = 0#3 → step s = .next t → t.fault ≠ 0#3 →
    t = { s0 with fault := t.fault, rnd := t.rnd }) ∧
  (∀ (s s0 : State) (rnd : Option Byte), StepRequested s rnd s0 → s.fault ≠ 0#3 → step s = .next s0) ∧
  (∀ s t : State, (¬ ∃ rnd s0, StepRequested s rnd s0) → ¬ ResetWaiting s → step s = .next t → t.fault = s.fault)

/-- R25 ("a step always completes"), R60, R24: every event has a next state, but for a reset with more than 3584 bytes. -/
def Obligations.EveryEventHasNextState : Prop :=
  ∀ s : State, (∀ image, s.upcoming = .reset image → image.length ≤ 3584) → ∃ t, step s = .next t

/-- R81, R188: at a self-jump every further step leaves the state unchanged (the step's random byte stands at the input, log
3). -/
def Obligations.SelfJumpIsFinal : Prop :=
  ∀ (s s0 : State) (rnd : Option Byte), StepRequested s rnd s0 → s.completed → step s = .next { s0 with rnd := rnd }

/-- The model's own interface (log 15), with R25: after `withFetchWord` the next step fetches and runs the instruction whose
word was placed, for a canonical memory and a `PC` at which an instruction can be fetched. -/
def Obligations.PlacedWordRunsNext : Prop :=
  ∀ (s : State) (nbits w : Nat), nbits ≤ 16 → s.mem.wf = true → s.pc.toNat ≤ 0x0FFE →
    step (s.withFetchWord nbits w) =
      exec (decodeWord (BitVec.ofNat 16 (w % 2 ^ nbits)))
        { s.withFetchWord nbits w with pc := s.pc + 2#16, rnd := none, events := [] }

/-! ### Invariants -/

/-- R22, R23: the invariant holds after reset. -/
def Obligations.InvariantAtReset : Prop := State.reset.Inv

/-- R23: every event keeps the invariant: `I <= 0x0FFF`, `PC <= 0x10FE`, `FAULT` in 0 to 4, every stack entry in use at most
0x1000, memory in canonical form. -/
def Obligations.EveryEventKeepsInvariant : Prop :=
  ∀ s t : State, s.Inv → step s = .next t → t.Inv

/-- R19, R48, R54: no event but a reset changes memory. -/
def Obligations.MemoryConstantBetweenResets : Prop :=
  ∀ s t : State, ¬ ResetWaiting s → step s = .next t → t.mem = s.mem ∧ ∀ a, t.memRead a = s.memRead a

/-- The model's own (log 9): two canonical memories that read the same at every address that exists are the same. -/
def Obligations.CanonicalMemoriesEqual : Prop :=
  ∀ m m' : Memory, m.wf = true → m'.wf = true → (∀ a, a < 4096 → m.read a = m'.read a) → m = m'

/-- R14, R15, R185: a timer never rises except by its own `LD DT` or `LD ST`. -/
def Obligations.TimersNeverRise : Prop :=
  ∀ s t : State, step s = .next t →
    ((¬ ∃ rnd s0 x, StepRequested s rnd s0 ∧ decode s.fetchBytes = .ok (.ldDtVx x)) → t.dt.toNat ≤ s.dt.toNat) ∧
    ((¬ ∃ rnd s0 x, StepRequested s rnd s0 ∧ decode s.fetchBytes = .ok (.ldStVx x)) → t.st.toNat ≤ s.st.toNat)

/-! ### Whole-machine rules on instructions -/

/-- R10, R12 to R18: an instruction that raises no fault changes only the registers and the parts of the state the spec
lists for it (`draws` is the model's own, log 3); one that raises a fault changes only `FAULT` and undoes the `PC` advance
(R152, log 7). -/
def Obligations.EachInstructionsWrites : Prop :=
  ∀ (i : Instr) (s t : State), s.fault = 0#3 → exec i s = .next t →
    (t.fault = 0#3 → OnlyChanged (regsWritten i) (partsWritten i) s t) ∧
    (t.fault ≠ 0#3 → OnlyChanged [] [.pc, .fault] s t ∧ t.pc = s.pc - 2#16)

/-- R10: an instruction that raises no fault reads no general register but those the table lists for it: another value in
any other register changes nothing but that register. -/
def Obligations.EachInstructionsReads : Prop :=
  ∀ (i : Instr) (r : Nibble) (b : Byte) (s t : State), s.fault = 0#3 → r ∉ regsRead i → exec i s = .next t →
    t.fault = 0#3 → exec i (s.setV r b) = .next (if r ∈ regsWritten i then t else t.setV r b)

/-- R15, R21: no instruction reads `ST`: with another value there an instruction does the same, and only `LD ST, Vx` writes
it. -/
def Obligations.SoundTimerUnobservable : Prop :=
  ∀ (i : Instr) (a : Byte) (s t : State), exec i s = .next t →
    ((∃ x, i = .ldStVx x) → exec i (s.setSt a) = .next t) ∧
    ((¬ ∃ x, i = .ldStVx x) → t.st = s.st ∧ exec i (s.setSt a) = .next (t.setSt a))

/-- R11: a flag an instruction leaves in `VF` is 0 or 1: `SHR`, `SHL` and a `DRW` that raises no fault for every operand,
`ADD` and `SUB` unless register 15 is the destination. -/
def Obligations.FlagsAreZeroOrOne : Prop :=
  ∀ (i : Instr) (s t : State), s.fault = 0#3 → exec i s = .next t → t.fault = 0#3 →
    ((∃ x y, (i = .addVxVy x y ∨ i = .subVxVy x y) ∧ x ≠ flagReg) ∨ (∃ x y, i = .shrVxVy x y ∨ i = .shlVxVy x y) ∨
      (∃ x y n, i = .drw x y n)) →
    t.getV flagReg = 0#8 ∨ t.getV flagReg = 1#8

/-! ### Control flow -/

/-- R80: `RET` pops the last entry into `PC`, or takes STACK_UNDERFLOW on an empty stack; after a `CALL` it comes back to
the instruction after it. -/
def Obligations.RetPopsReturnAddress : Prop :=
  decodeWord 0x00EE#16 = .ret ∧
  (∀ s : State, 0 < s.sp.val → ∃ t, exec .ret s = .next t ∧ s.stack[s.sp.val - 1]? = some t.pc ∧
    t.sp.val = s.sp.val - 1 ∧ OnlyChanged [] [.pc, .sp] s t) ∧
  (∀ s : State, s.sp.val = 0 → ∃ t, exec .ret s = .next t ∧ t.fault = 3#3 ∧ t.pc = s.pc - 2#16 ∧
    OnlyChanged [] [.pc, .fault] s t) ∧
  (∀ (s t : State) (nnn : Addr), s.sp.val < 16 → exec (.call nnn) s = .next t →
    ∃ u, exec .ret t = .next u ∧ u.pc = s.pc ∧ u.sp = s.sp)

/-- R81: `JP nnn`. -/
def Obligations.JpSetsPc : Prop :=
  (∀ w : Word, w.extractLsb' 12 4 = 0x1#4 → decodeWord w = .jp (w.extractLsb' 0 12)) ∧
  (∀ (nnn : Addr) (s : State), ∃ t, exec (.jp nnn) s = .next t ∧ t.pc.toNat = nnn.toNat ∧ OnlyChanged [] [.pc] s t)

/-- R82: `CALL nnn` pushes the advanced `PC` and jumps, or takes STACK_OVERFLOW on a full stack. -/
def Obligations.CallPushesPc : Prop :=
  (∀ w : Word, w.extractLsb' 12 4 = 0x2#4 → decodeWord w = .call (w.extractLsb' 0 12)) ∧
  (∀ (nnn : Addr) (s : State), s.sp.val < 16 → ∃ t, exec (.call nnn) s = .next t ∧ t.pc.toNat = nnn.toNat ∧
    t.sp.val = s.sp.val + 1 ∧ t.stack[s.sp.val]? = some s.pc ∧
    (∀ k, k ≠ s.sp.val → t.stack[k]? = s.stack[k]?) ∧ OnlyChanged [] [.pc, .sp, .stack] s t) ∧
  (∀ (nnn : Addr) (s : State), s.sp.val = 16 → ∃ t, exec (.call nnn) s = .next t ∧ t.fault = 4#3 ∧ t.pc = s.pc - 2#16 ∧
    OnlyChanged [] [.pc, .fault] s t)

/-- R83: `JP V0, nnn`: the exact sum, whatever `word[11:8]` is. -/
def Obligations.JpV0AddsRegisterZero : Prop :=
  (∀ w : Word, w.extractLsb' 12 4 = 0xB#4 → decodeWord w = .jpV0 (w.extractLsb' 0 12)) ∧
  (∀ (nnn : Addr) (s : State), ∃ t, exec (.jpV0 nnn) s = .next t ∧ t.pc.toNat = nnn.toNat + (s.getV 0x0#4).toNat ∧
    OnlyChanged [] [.pc] s t)

/-! ### Immediate, index and random -/

/-- R90: `LD Vx, kk`, register 15 included. -/
def Obligations.LdImmediate : Prop :=
  (∀ w : Word, w.extractLsb' 12 4 = 0x6#4 → decodeWord w = .ldVxKk (w.extractLsb' 8 4) (w.extractLsb' 0 8)) ∧
  (∀ (x : Nibble) (kk : Byte) (s : State), ∃ t, exec (.ldVxKk x kk) s = .next t ∧ t.getV x = kk ∧ OnlyChanged [x] [] s t)

/-- R91: `ADD Vx, kk` wraps and sets no flag. -/
def Obligations.AddImmediateWrapsNoFlag : Prop :=
  (∀ w : Word, w.extractLsb' 12 4 = 0x7#4 → decodeWord w = .addVxKk (w.extractLsb' 8 4) (w.extractLsb' 0 8)) ∧
  (∀ (x : Nibble) (kk : Byte) (s : State), ∃ t, exec (.addVxKk x kk) s = .next t ∧
    (t.getV x).toNat = ((s.getV x).toNat + kk.toNat) % 256 ∧ OnlyChanged [x] [] s t)

/-- R92: `LD I, nnn`. -/
def Obligations.LdIndex : Prop :=
  (∀ w : Word, w.extractLsb' 12 4 = 0xA#4 → decodeWord w = .ldI (w.extractLsb' 0 12)) ∧
  (∀ (nnn : Addr) (s : State), ∃ t, exec (.ldI nnn) s = .next t ∧ t.index.toNat = nnn.toNat ∧
    OnlyChanged [] [.index] s t)

/-- R93, R27: `RND Vx, kk` for every byte supplied, and for every free byte; where `kk` has a 0 the result has a 0. The
counter `draws` is the model's own (log 3). -/
def Obligations.RndMasksDraw : Prop :=
  (∀ w : Word, w.extractLsb' 12 4 = 0xC#4 → decodeWord w = .rnd (w.extractLsb' 8 4) (w.extractLsb' 0 8)) ∧
  (∀ (x : Nibble) (kk : Byte) (s : State), ∃ t, exec (.rnd x kk) s = .next t ∧
    (∀ b, s.rnd = some b → t.getV x = b &&& kk) ∧
    (s.rnd = none → t.getV x = Config.randomByte s.draws &&& kk) ∧
    t.getV x &&& ~~~kk = 0#8 ∧ t.draws = s.draws + 1 ∧ OnlyChanged [x] [.draws] s t)

/-! ### Register-register arithmetic and logic -/

/-- R100: `LD Vx, Vy`. -/
def Obligations.LdRegister : Prop :=
  (∀ w : Word, w.extractLsb' 12 4 = 0x8#4 → w.extractLsb' 0 4 = 0x0#4 →
    decodeWord w = .ldVxVy (w.extractLsb' 8 4) (w.extractLsb' 4 4)) ∧
  (∀ (x y : Nibble) (s : State), ∃ t, exec (.ldVxVy x y) s = .next t ∧ t.getV x = s.getV y ∧ OnlyChanged [x] [] s t)

/-- R101, R102, R103: `OR`, `AND`, `XOR`, no flag. -/
def Obligations.LogicNoFlag : Prop :=
  (∀ w : Word, w.extractLsb' 12 4 = 0x8#4 →
    (w.extractLsb' 0 4 = 0x1#4 → decodeWord w = .orVxVy (w.extractLsb' 8 4) (w.extractLsb' 4 4)) ∧
    (w.extractLsb' 0 4 = 0x2#4 → decodeWord w = .andVxVy (w.extractLsb' 8 4) (w.extractLsb' 4 4)) ∧
    (w.extractLsb' 0 4 = 0x3#4 → decodeWord w = .xorVxVy (w.extractLsb' 8 4) (w.extractLsb' 4 4))) ∧
  (∀ (x y : Nibble) (s : State),
    (∃ t, exec (.orVxVy x y) s = .next t ∧ t.getV x = s.getV x ||| s.getV y ∧ OnlyChanged [x] [] s t) ∧
    (∃ t, exec (.andVxVy x y) s = .next t ∧ t.getV x = s.getV x &&& s.getV y ∧ OnlyChanged [x] [] s t) ∧
    (∃ t, exec (.xorVxVy x y) s = .next t ∧ t.getV x = s.getV x ^^^ s.getV y ∧ OnlyChanged [x] [] s t))

/-- R104: `ADD Vx, Vy`: the sum modulo 256 in `V[x]`, for register 15 too, and else the carry in `VF`. -/
def Obligations.AddCarriesOut : Prop :=
  (∀ w : Word, w.extractLsb' 12 4 = 0x8#4 → w.extractLsb' 0 4 = 0x4#4 →
    decodeWord w = .addVxVy (w.extractLsb' 8 4) (w.extractLsb' 4 4)) ∧
  (∀ (x y : Nibble) (s : State), ∃ t, exec (.addVxVy x y) s = .next t ∧
    (t.getV x).toNat = ((s.getV x).toNat + (s.getV y).toNat) % 256 ∧
    (x ≠ flagReg → t.getV flagReg = if 255 < (s.getV x).toNat + (s.getV y).toNat then 1#8 else 0#8) ∧
    OnlyChanged [x, flagReg] [] s t)

/-- R105: `SUB Vx, Vy`: the difference modulo 256 in `V[x]`, for register 15 too, and else not-borrow in `VF`. -/
def Obligations.SubNotBorrow : Prop :=
  (∀ w : Word, w.extractLsb' 12 4 = 0x8#4 → w.extractLsb' 0 4 = 0x5#4 →
    decodeWord w = .subVxVy (w.extractLsb' 8 4) (w.extractLsb' 4 4)) ∧
  (∀ (x y : Nibble) (s : State), ∃ t, exec (.subVxVy x y) s = .next t ∧
    (t.getV x).toNat =
      (if (s.getV x).toNat < (s.getV y).toNat then (s.getV x).toNat + 256 - (s.getV y).toNat
       else (s.getV x).toNat - (s.getV y).toNat) ∧
    (x ≠ flagReg → t.getV flagReg = if (s.getV y).toNat ≤ (s.getV x).toNat then 1#8 else 0#8) ∧
    OnlyChanged [x, flagReg] [] s t)

/-- R106: `SHR Vx, Vy`: bit 0 of the old `V[y]` in `VF`, and half of it in `V[x]` unless register 15 is named. -/
def Obligations.ShrCopiesAndShifts : Prop :=
  (∀ w : Word, w.extractLsb' 12 4 = 0x8#4 → w.extractLsb' 0 4 = 0x6#4 →
    decodeWord w = .shrVxVy (w.extractLsb' 8 4) (w.extractLsb' 4 4)) ∧
  (∀ (x y : Nibble) (s : State), ∃ t, exec (.shrVxVy x y) s = .next t ∧
    (t.getV flagReg).toNat = (s.getV y).toNat % 2 ∧
    (x ≠ flagReg → (t.getV x).toNat = (s.getV y).toNat / 2) ∧
    OnlyChanged [x, flagReg] [] s t)

/-- R107: `SHL Vx, Vy`: bit 7 of the old `V[y]` in `VF`, and twice it modulo 256 in `V[x]` unless register 15 is named. -/
def Obligations.ShlCopiesAndShifts : Prop :=
  (∀ w : Word, w.extractLsb' 12 4 = 0x8#4 → w.extractLsb' 0 4 = 0xE#4 →
    decodeWord w = .shlVxVy (w.extractLsb' 8 4) (w.extractLsb' 4 4)) ∧
  (∀ (x y : Nibble) (s : State), ∃ t, exec (.shlVxVy x y) s = .next t ∧
    (t.getV flagReg).toNat = (s.getV y).toNat / 128 ∧
    (x ≠ flagReg → (t.getV x).toNat = 2 * (s.getV y).toNat % 256) ∧
    OnlyChanged [x, flagReg] [] s t)

/-- R110: register 15 named in a flag-writing instruction of the ALU (the spec's decision D12). -/
def Obligations.FlagRegisterAsOperand : Prop :=
  ∀ (s t : State) (y : Nibble),
    (exec (.addVxVy flagReg y) s = .next t →
      (t.getV flagReg).toNat = ((s.getV flagReg).toNat + (s.getV y).toNat) % 256) ∧
    (exec (.subVxVy flagReg y) s = .next t → t.getV flagReg = s.getV flagReg - s.getV y) ∧
    (exec (.shrVxVy flagReg y) s = .next t → (t.getV flagReg).toNat = (s.getV y).toNat % 2) ∧
    (exec (.shlVxVy flagReg y) s = .next t → (t.getV flagReg).toNat = (s.getV y).toNat / 128) ∧
    (∀ x, x ≠ flagReg →
      (exec (.addVxVy x flagReg) s = .next t →
        (t.getV x).toNat = ((s.getV x).toNat + (s.getV flagReg).toNat) % 256 ∧
        t.getV flagReg = if 255 < (s.getV x).toNat + (s.getV flagReg).toNat then 1#8 else 0#8) ∧
      (exec (.subVxVy x flagReg) s = .next t →
        t.getV x = s.getV x - s.getV flagReg ∧
        t.getV flagReg = if (s.getV flagReg).toNat ≤ (s.getV x).toNat then 1#8 else 0#8) ∧
      (exec (.shrVxVy x flagReg) s = .next t →
        (t.getV x).toNat = (s.getV flagReg).toNat / 2 ∧ (t.getV flagReg).toNat = (s.getV flagReg).toNat % 2) ∧
      (exec (.shlVxVy x flagReg) s = .next t →
        (t.getV x).toNat = 2 * (s.getV flagReg).toNat % 256 ∧ (t.getV flagReg).toNat = (s.getV flagReg).toNat / 128))

/-! ### Display -/

/-- R120: `CLS` turns every cell off and changes nothing else. -/
def Obligations.ClsTurnsAllOff : Prop :=
  decodeWord 0x00E0#16 = .cls ∧
  ∀ s : State, ∃ t, exec .cls s = .next t ∧ (∀ x y, x < 64 → y < 32 → t.pixel x y = false) ∧ OnlyChanged [] [.display] s t

/-- R121, R122 (1), (2), (4): where no row that would be drawn lies outside memory, `DRW` gives each cell of the clipped
window its old value XOR its sprite bit, leaves every other cell alone, and changes nothing else but `VF`. -/
def Obligations.DrwXorsSprite : Prop :=
  (∀ w : Word, w.extractLsb' 12 4 = 0xD#4 →
    decodeWord w = .drw (w.extractLsb' 8 4) (w.extractLsb' 4 4) (w.extractLsb' 0 4)) ∧
  (∀ (x y n : Nibble) (s : State) (x0 y0 rows : Nat),
    x0 = (s.getV x).toNat % 64 → y0 = (s.getV y).toNat % 32 → rows = min n.toNat (32 - y0) →
    (rows = 0 ∨ s.index.toNat + rows - 1 ≤ 0x0FFF) →
    ∃ t, exec (.drw x y n) s = .next t ∧
      (∀ u w, u < 64 → w < 32 →
        t.pixel u w = (s.pixel u w ^^
          (decide (x0 ≤ u ∧ u ≤ x0 + 7 ∧ y0 ≤ w ∧ w < y0 + rows) &&
            (s.memRead (s.index.toNat + (w - y0))).getLsbD (7 - (u - x0))))) ∧
      OnlyChanged [flagReg] [.display] s t)

/-- R121, R122 (3): `VF` after a `DRW` that raises no fault is 1 exactly when a sprite bit of 1 on the display met a pixel
that was on, and else 0. Where R121's remark (g) says otherwise, the pseudocode is followed (log 16, DEDUCED). -/
def Obligations.DrwReportsCollision : Prop :=
  ∀ (x y n : Nibble) (s : State) (x0 y0 rows : Nat),
    x0 = (s.getV x).toNat % 64 → y0 = (s.getV y).toNat % 32 → rows = min n.toNat (32 - y0) →
    (rows = 0 ∨ s.index.toNat + rows - 1 ≤ 0x0FFF) →
    ∃ t, exec (.drw x y n) s = .next t ∧ (t.getV flagReg = 0#8 ∨ t.getV flagReg = 1#8) ∧
      (t.getV flagReg = 1#8 ↔
        ∃ r c, r < rows ∧ c < 8 ∧ x0 + c < 64 ∧ (s.memRead (s.index.toNat + r)).getLsbD (7 - c) = true ∧
          s.pixel (x0 + c) (y0 + r) = true)

/-- R121, R47: a `DRW` that would read a row above address 0xFFF takes SPRITE_OUT_OF_BOUNDS, draws nothing and keeps `VF`
(the spec's decisions D3 and D13). -/
def Obligations.DrwOutsideMemoryFaults : Prop :=
  ∀ (x y n : Nibble) (s : State) (rows : Nat), rows = min n.toNat (32 - (s.getV y).toNat % 32) →
    0 < rows → 0x0FFF < s.index.toNat + rows - 1 →
    ∃ t, exec (.drw x y n) s = .next t ∧ t.fault = 2#3 ∧ t.pc = s.pc - 2#16 ∧ OnlyChanged [] [.pc, .fault] s t

/-- R122 (5): after a `DRW` that raised no fault, the same `DRW` at the same coordinates raises none and restores the
framebuffer. -/
def Obligations.DrwTwiceRestoresDisplay : Prop :=
  ∀ (x y n : Nibble) (s t : State), s.fault = 0#3 → exec (.drw x y n) s = .next t → t.fault = 0#3 →
    (t.getV x).toNat % 64 = (s.getV x).toNat % 64 → (t.getV y).toNat % 32 = (s.getV y).toNat % 32 →
    ∃ u, exec (.drw x y n) t = .next u ∧ u.fault = 0#3 ∧ u.fb = s.fb

/-! ### Timers -/

/-- R130, R131, R132: the three timer accesses, `V[x] <- DT`, `DT <- V[x]` and `ST <- V[x]`. -/
def Obligations.TimerAccesses : Prop :=
  (∀ w : Word, w.extractLsb' 12 4 = 0xF#4 →
    (w.extractLsb' 0 8 = 0x07#8 → decodeWord w = .ldVxDt (w.extractLsb' 8 4)) ∧
    (w.extractLsb' 0 8 = 0x15#8 → decodeWord w = .ldDtVx (w.extractLsb' 8 4)) ∧
    (w.extractLsb' 0 8 = 0x18#8 → decodeWord w = .ldStVx (w.extractLsb' 8 4))) ∧
  (∀ (x : Nibble) (s : State),
    (∃ t, exec (.ldVxDt x) s = .next t ∧ t.getV x = s.dt ∧ OnlyChanged [x] [] s t) ∧
    (∃ t, exec (.ldDtVx x) s = .next t ∧ t.dt = s.getV x ∧ OnlyChanged [] [.dt] s t) ∧
    (∃ t, exec (.ldStVx x) s = .next t ∧ t.st = s.getV x ∧ OnlyChanged [] [.st] s t))

/-- R160, and R165 and R26 for the halted core: a delay tick takes one from `DT`, never below 0, and touches nothing else.
That the event is taken is the model's own (log 2, DESIGN CHOICE). -/
def Obligations.DelayTickCountsDown : Prop :=
  ∀ s : State, s.upcoming = .delayTick →
    ∃ t, step s = .next t ∧ t.dt.toNat = s.dt.toNat - 1 ∧ OnlyChanged [] [.dt] s.taken t

/-- R161, R163, and R165 and R26 for the halted core: a sound tick that finds `ST` above 0 emits one tone and takes one from
`ST`; at 0 it does nothing. That the event is taken and the list of outputs are the model's own (logs 2 and 4, DESIGN
CHOICE). -/
def Obligations.SoundTickEmitsTone : Prop :=
  ∀ s : State, s.upcoming = .soundTick →
    ∃ t, step s = .next t ∧ t.st.toNat = s.st.toNat - 1 ∧
      t.outputs = s.outputs ++ (if 0 < s.st.toNat then [.tone] else []) ∧ OnlyChanged [] [.st, .outputs] s.taken t

/-- R132, R163: from `ST = k`, any number `m` of sound ticks one after the other, in the queue or free, emits `k` tones, or
`m` if that is fewer. The history ahead and the list of outputs are the model's own (logs 2 and 4). -/
def Obligations.SoundTicksEmitAtMostSt : Prop :=
  ∀ (m : Nat) (s : State), (∀ j, j < m → s.eventAt j = .soundTick) →
    ∃ t : State, steps m s = .next t ∧ t.st.toNat = s.st.toNat - m ∧
      t.outputs = s.outputs ++ List.replicate (min m s.st.toNat) .tone ∧ ∀ j, t.eventAt j = s.eventAt (m + j)

/-- R164: a step whose instruction touches no timer commutes with a tick: both orders give the same state. The two
orders are two queues (log 2, DESIGN CHOICE). -/
def Obligations.TicksCommuteWithOtherSteps : Prop :=
  ∀ (s : State) (tick : Event) (b : Option Byte) (rest : List Event), tick = .delayTick ∨ tick = .soundTick →
    (s.fault = 0#3 → s.pc.toNat ≤ 0x0FFE → ∀ i, decode s.fetchBytes = .ok i → touchesTimer i = false) →
    steps 2 { s with events := tick :: .step b :: rest } = steps 2 { s with events := .step b :: tick :: rest }

/-- R164: what the two orders of a tick and a timer access give, the tick first and the access first. The list of outputs
is the model's own field (log 4). -/
def Obligations.ContendingTickAndAccess : Prop :=
  ∀ (x : Nibble) (s : State),
    ((∃ t, exec (.ldVxDt x) s.delayTick = .next t ∧ (t.getV x).toNat = s.dt.toNat - 1) ∧
      (∃ t, exec (.ldVxDt x) s = .next t ∧ t.delayTick.getV x = s.dt)) ∧
    ((∃ t, exec (.ldDtVx x) s.delayTick = .next t ∧ t.dt = s.getV x) ∧
      (∃ t, exec (.ldDtVx x) s = .next t ∧ t.delayTick.dt.toNat = (s.getV x).toNat - 1)) ∧
    ((∃ t, exec (.ldStVx x) s.soundTick = .next t ∧ t.st = s.getV x) ∧
      (∃ t, exec (.ldStVx x) s = .next t ∧ t.soundTick.st.toNat = (s.getV x).toNat - 1 ∧
        t.soundTick.outputs = s.outputs ++ (if 0 < (s.getV x).toNat then [.tone] else [])))

/-! ### Unrecognised words -/

/-- R140, R67: a word that none of the 21 forms selects is one of the 15 sets, and none other is; its instruction (each of
the constructors nop0, nop3, nop4, nop5, nop9, nopE, nop8x7 to nop8xD, nop8xF, nopF) does nothing, and the whole effect of
its step is `PC <- PC + 2` (the request is taken and the step's random byte stands at the input, not consumed: logs
2 and 3, DESIGN CHOICE). -/
def Obligations.UnrecognisedWordsDoNothing : Prop :=
  (∀ w : Word, (decodeWord w).isNop = true ↔ ∀ r ∈ formRows, r.selects w = false) ∧
  (∀ (i : Instr) (s : State), i.isNop = true → exec i s = .next s) ∧
  (∀ (s s0 : State) (rnd : Option Byte) (i : Instr), StepRequested s rnd s0 → s.fault = 0#3 → s.pc.toNat ≤ 0x0FFE →
    decode s.fetchBytes = .ok i → i.isNop = true → step s = .next { s0 with pc := s.pc + 2#16, rnd := rnd })

/-! ### The host -/

/-- R22, R29: what a reset with an image of at most 3584 bytes leaves, whatever the state before, a halted core included.
The font bytes after the first five are the spec's default for an open parameter (log 1); the statement names them only as
`Config.font`. That events still to come are kept is the model's own (logs 2 and
14). -/
def Obligations.ResetLeavesResetValues : Prop :=
  Config.font.length = 80 ∧
  ∀ (s : State) (image : List Byte), s.upcoming = .reset image → image.length ≤ 3584 →
    ∃ t, step s = .next t ∧ t.pc = 0x0200#16 ∧ (∀ r, t.getV r = 0x00#8) ∧ t.index = 0x0000#16 ∧ t.sp.val = 0 ∧
      (∀ k, k < 16 → t.stack[k]? = some 0x0000#16) ∧ t.dt = 0x00#8 ∧ t.st = 0x00#8 ∧
      (∀ x y, x < 64 → y < 32 → t.pixel x y = false) ∧ t.fault = 0#3 ∧
      (∀ k, k < image.length → image[k]? = some (t.memRead (0x200 + k))) ∧
      (∀ k, k < 80 → Config.font[k]? = some (t.memRead (0x050 + k))) ∧
      (t.memRead 0x050 = 0xF0#8 ∧ t.memRead 0x051 = 0x90#8 ∧ t.memRead 0x052 = 0x90#8 ∧ t.memRead 0x053 = 0x90#8 ∧
        t.memRead 0x054 = 0xF0#8) ∧
      (∀ a, a < 0x050 ∨ (0x0A0 ≤ a ∧ a < 0x200) ∨ (0x200 + image.length ≤ a ∧ a ≤ 0xFFF) → t.memRead a = 0x00#8) ∧
      ∀ k, t.eventAt k = s.eventAt (k + 1)

/-- R22: the machine's reset state is what a reset with the empty image leaves. -/
def Obligations.ResetStateIsEmptyImageReset : Prop :=
  step { State.reset with events := [.reset []] } = .next State.reset

/-- R43: an image of more than 3584 bytes is not accepted: the reset is refused by name (log 11). -/
def Obligations.OverlongImageRefused : Prop :=
  ∀ (s : State) (image : List Byte), s.upcoming = .reset image → 3584 < image.length →
    step s = .refused .imageTooLong

/-- R28, R29, R189: a query answers the pixel as it stands and a read of `FAULT` its code, and neither changes anything;
that the event is taken and the record of answers are the
model's own (logs 2 and 4). -/
def Obligations.HostReadsChangeNothing : Prop :=
  (∀ (s : State) (x : BitVec 6) (y : BitVec 5), s.upcoming = .query x y →
    ∃ t, step s = .next t ∧ t.outputs = s.outputs ++ [.pixel x y (s.pixel x.toNat y.toNat)] ∧
      OnlyChanged [] [.outputs] s.taken t) ∧
  (∀ s : State, s.upcoming = .readFault →
    ∃ t, step s = .next t ∧ t.outputs = s.outputs ++ [.faultCode s.fault] ∧ OnlyChanged [] [.outputs] s.taken t)
end

