-- ==== Sys2Proof/Laws/Decode.lean ====
section
/-! SUPPORT. The fields of assembled words, the words of fields, and the bytes of words: what the round trips between
decoder and encoder rest on. -/

namespace Sys2Proof

/-! ### The fields of a word assembled from its parts -/

@[simp] theorem fieldOp_wordOfNibbles (a b c d : Nibble) : fieldOp (wordOfNibbles a b c d) = a := by
  unfold fieldOp wordOfNibbles
  ext i hi
  simp
  interval_cases i <;> simp

@[simp] theorem fieldX_wordOfNibbles (a b c d : Nibble) : fieldX (wordOfNibbles a b c d) = b := by
  unfold fieldX wordOfNibbles
  ext i hi
  simp
  interval_cases i <;> simp

@[simp] theorem fieldY_wordOfNibbles (a b c d : Nibble) : fieldY (wordOfNibbles a b c d) = c := by
  unfold fieldY wordOfNibbles
  ext i hi
  simp
  interval_cases i <;> simp

@[simp] theorem fieldN_wordOfNibbles (a b c d : Nibble) : fieldN (wordOfNibbles a b c d) = d := by
  unfold fieldN wordOfNibbles
  ext i hi
  simp
  interval_cases i <;> simp

@[simp] theorem fieldOp_wordOfOpNnn (op : Nibble) (nnn : Addr) : fieldOp (wordOfOpNnn op nnn) = op := by
  unfold fieldOp wordOfOpNnn
  ext i hi
  simp
  interval_cases i <;> simp

@[simp] theorem fieldNnn_wordOfOpNnn (op : Nibble) (nnn : Addr) : fieldNnn (wordOfOpNnn op nnn) = nnn := by
  unfold fieldNnn wordOfOpNnn
  ext i hi
  simp
  interval_cases i <;> simp

@[simp] theorem fieldKk_wordOfOpNnn (op : Nibble) (nnn : Addr) : fieldKk (wordOfOpNnn op nnn) = nnn.extractLsb' 0 8 := by
  unfold fieldKk wordOfOpNnn
  ext i hi
  simp
  interval_cases i <;> simp

@[simp] theorem fieldOp_wordOfOpXKk (op x : Nibble) (kk : Byte) : fieldOp (wordOfOpXKk op x kk) = op := by
  unfold fieldOp wordOfOpXKk
  ext i hi
  simp
  interval_cases i <;> simp

@[simp] theorem fieldX_wordOfOpXKk (op x : Nibble) (kk : Byte) : fieldX (wordOfOpXKk op x kk) = x := by
  unfold fieldX wordOfOpXKk
  ext i hi
  simp
  interval_cases i <;> simp

@[simp] theorem fieldKk_wordOfOpXKk (op x : Nibble) (kk : Byte) : fieldKk (wordOfOpXKk op x kk) = kk := by
  unfold fieldKk wordOfOpXKk
  ext i hi
  simp
  interval_cases i <;> simp

@[simp] theorem fieldOp_wordOfAluNop (w : BitVec 8) (fn : Nibble) : fieldOp (wordOfAluNop w fn) = 0x8#4 := by
  unfold fieldOp wordOfAluNop
  ext i hi
  simp
  interval_cases i <;> simp

@[simp] theorem fieldXy_wordOfAluNop (w : BitVec 8) (fn : Nibble) : fieldXy (wordOfAluNop w fn) = w := by
  unfold fieldXy wordOfAluNop
  ext i hi
  simp
  interval_cases i <;> simp

@[simp] theorem fieldN_wordOfAluNop (w : BitVec 8) (fn : Nibble) : fieldN (wordOfAluNop w fn) = fn := by
  unfold fieldN wordOfAluNop
  ext i hi
  simp
  interval_cases i <;> simp

@[simp] theorem highByte_wordOfBytes (h l : Byte) : highByte (wordOfBytes h l) = h := by
  unfold highByte wordOfBytes
  ext i hi
  simp
  interval_cases i <;> simp

@[simp] theorem lowByte_wordOfBytes (h l : Byte) : lowByte (wordOfBytes h l) = l := by
  unfold lowByte wordOfBytes
  ext i hi
  simp
  interval_cases i <;> simp

/-! ### A word is assembled from its own parts -/

@[simp] theorem wordOfBytes_highByte_lowByte (w : Word) : wordOfBytes (highByte w) (lowByte w) = w := by
  unfold wordOfBytes highByte lowByte
  ext i hi
  simp
  interval_cases i <;> simp

@[simp] theorem wordOfOpNnn_fields (w : Word) : wordOfOpNnn (fieldOp w) (fieldNnn w) = w := by
  unfold wordOfOpNnn fieldOp fieldNnn
  ext i hi
  simp
  interval_cases i <;> simp

@[simp] theorem wordOfOpXKk_fields (w : Word) : wordOfOpXKk (fieldOp w) (fieldX w) (fieldKk w) = w := by
  unfold wordOfOpXKk fieldOp fieldX fieldKk
  ext i hi
  simp
  interval_cases i <;> simp

@[simp] theorem wordOfNibbles_fields (w : Word) : wordOfNibbles (fieldOp w) (fieldX w) (fieldY w) (fieldN w) = w := by
  unfold wordOfNibbles fieldOp fieldX fieldY fieldN
  ext i hi
  simp
  interval_cases i <;> simp

theorem wordOfAluNop_fields (w : Word) (h : fieldOp w = 0x8#4) : wordOfAluNop (fieldXy w) (fieldN w) = w := by
  rw [← wordOfNibbles_fields w, h]
  unfold wordOfAluNop fieldXy fieldN wordOfNibbles fieldX fieldY
  ext i hi
  simp
  interval_cases i <;> simp

/-! ### Whole words and their fields -/

theorem fieldOp_cls : fieldOp 0x00E0#16 = 0x0#4 := by decide
theorem fieldOp_ret : fieldOp 0x00EE#16 = 0x0#4 := by decide

/-- A word whose `op` is not 0 is neither CLS nor RET (R64, conditions 1 and 2). -/
theorem ne_wholeWord_of_op (w : Word) (h : fieldOp w ≠ 0x0#4) : w ≠ 0x00E0#16 ∧ w ≠ 0x00EE#16 :=
  ⟨fun e => h (e ▸ fieldOp_cls), fun e => h (e ▸ fieldOp_ret)⟩

/-- The other bits of a word whose `op` is 0 say which word it is. -/
theorem wordOfOpNnn_injective {op : Nibble} {a b : Addr} (h : wordOfOpNnn op a = wordOfOpNnn op b) : a = b := by
  have := congrArg fieldNnn h
  simpa using this

/-- Masking a word of format A or I with 0xF000 leaves `op` (R66). -/
theorem wordOfOpNnn_and_mask (op : Nibble) (nnn : Addr) :
    wordOfOpNnn op nnn &&& 0xF000#16 = wordOfOpNnn op 0#12 := by
  unfold wordOfOpNnn
  ext i hi
  simp
  interval_cases i <;> simp

/-- Masking a word with 0xF000 leaves `op` (R66). -/
theorem wordOfOpXKk_and_mask (op x : Nibble) (kk : Byte) :
    wordOfOpXKk op x kk &&& 0xF000#16 = wordOfOpNnn op 0#12 := by
  unfold wordOfOpNnn wordOfOpXKk
  ext i hi
  simp
  interval_cases i <;> simp

/-- Masking a word with 0xF0FF leaves `op` and `fb` (R66). -/
theorem wordOfOpXKk_and_maskT (op x : Nibble) (kk : Byte) :
    wordOfOpXKk op x kk &&& 0xF0FF#16 = wordOfOpXKk op 0#4 kk := by
  unfold wordOfOpXKk
  ext i hi
  simp
  interval_cases i <;> simp

/-- Masking a word of nibbles with 0xF000 leaves `op` (R66). -/
theorem wordOfNibbles_and_mask (a b c d : Nibble) :
    wordOfNibbles a b c d &&& 0xF000#16 = wordOfOpNnn a 0#12 := by
  unfold wordOfNibbles wordOfOpNnn
  ext i hi
  simp
  interval_cases i <;> simp

/-- Masking a word of nibbles with 0xF00F leaves `op` and `fn` (R66). -/
theorem wordOfNibbles_and_maskR (a b c d : Nibble) :
    wordOfNibbles a b c d &&& 0xF00F#16 = wordOfNibbles a 0#4 0#4 d := by
  unfold wordOfNibbles
  ext i hi
  simp
  interval_cases i <;> simp

/-- Masking an unrecognised word of the `op = 8` group with 0xF00F leaves `op` and `fn` (R67). -/
theorem wordOfAluNop_and_maskR (w : BitVec 8) (fn : Nibble) :
    wordOfAluNop w fn &&& 0xF00F#16 = wordOfAluNop 0#8 fn := by
  unfold wordOfAluNop
  ext i hi
  simp
  interval_cases i <;> simp

/-! ### The dispatch, by `op` (R64) -/

/-- The tests for the two whole words fail where `op` is not 0. -/
theorem decodeWord_of_op {w : Word} {op : Nibble} (h : fieldOp w = op) (hop : op ≠ 0x0#4) :
    decodeWord w =
      (if op = 0x1#4 then .jp (fieldNnn w)
      else if op = 0x2#4 then .call (fieldNnn w)
      else if op = 0x6#4 then .ldVxKk (fieldX w) (fieldKk w)
      else if op = 0x7#4 then .addVxKk (fieldX w) (fieldKk w)
      else if op = 0x8#4 then decodeAlu w
      else if op = 0xA#4 then .ldI (fieldNnn w)
      else if op = 0xB#4 then .jpV0 (fieldNnn w)
      else if op = 0xC#4 then .rnd (fieldX w) (fieldKk w)
      else if op = 0xD#4 then .drw (fieldX w) (fieldY w) (fieldN w)
      else if op = 0xF#4 then decodeTimer w
      else decodeUnrecognised w) := by
  subst h
  obtain ⟨h1, h2⟩ := ne_wholeWord_of_op w hop
  simp only [decodeWord, h1, h2, if_false]

/-- A word with `op = 0` that is neither CLS nor RET is unrecognised (R67). -/
theorem decodeWord_op0 {w : Word} (h : fieldOp w = 0x0#4) (h1 : w ≠ 0x00E0#16) (h2 : w ≠ 0x00EE#16) :
    decodeWord w = .nop0 (fieldNnn w) := by
  simp [decodeWord, decodeUnrecognised, h, h1, h2]

theorem decodeWord_op1 {w : Word} (h : fieldOp w = 0x1#4) : decodeWord w = .jp (fieldNnn w) := by
  rw [decodeWord_of_op h (by decide)]; rfl

theorem decodeWord_op2 {w : Word} (h : fieldOp w = 0x2#4) : decodeWord w = .call (fieldNnn w) := by
  rw [decodeWord_of_op h (by decide)]; rfl

theorem decodeWord_op3 {w : Word} (h : fieldOp w = 0x3#4) : decodeWord w = .nop3 (fieldNnn w) := by
  rw [decodeWord_of_op h (by decide)]; simp [decodeUnrecognised, h]

theorem decodeWord_op4 {w : Word} (h : fieldOp w = 0x4#4) : decodeWord w = .nop4 (fieldNnn w) := by
  rw [decodeWord_of_op h (by decide)]; simp [decodeUnrecognised, h]

theorem decodeWord_op5 {w : Word} (h : fieldOp w = 0x5#4) : decodeWord w = .nop5 (fieldNnn w) := by
  rw [decodeWord_of_op h (by decide)]; simp [decodeUnrecognised, h]

theorem decodeWord_op6 {w : Word} (h : fieldOp w = 0x6#4) : decodeWord w = .ldVxKk (fieldX w) (fieldKk w) := by
  rw [decodeWord_of_op h (by decide)]; rfl

theorem decodeWord_op7 {w : Word} (h : fieldOp w = 0x7#4) : decodeWord w = .addVxKk (fieldX w) (fieldKk w) := by
  rw [decodeWord_of_op h (by decide)]; rfl

theorem decodeWord_op8 {w : Word} (h : fieldOp w = 0x8#4) : decodeWord w = decodeAlu w := by
  rw [decodeWord_of_op h (by decide)]; rfl

theorem decodeWord_op9 {w : Word} (h : fieldOp w = 0x9#4) : decodeWord w = .nop9 (fieldNnn w) := by
  rw [decodeWord_of_op h (by decide)]; simp [decodeUnrecognised, h]

theorem decodeWord_opA {w : Word} (h : fieldOp w = 0xA#4) : decodeWord w = .ldI (fieldNnn w) := by
  rw [decodeWord_of_op h (by decide)]; rfl

theorem decodeWord_opB {w : Word} (h : fieldOp w = 0xB#4) : decodeWord w = .jpV0 (fieldNnn w) := by
  rw [decodeWord_of_op h (by decide)]; rfl

theorem decodeWord_opC {w : Word} (h : fieldOp w = 0xC#4) : decodeWord w = .rnd (fieldX w) (fieldKk w) := by
  rw [decodeWord_of_op h (by decide)]; rfl

theorem decodeWord_opD {w : Word} (h : fieldOp w = 0xD#4) : decodeWord w = .drw (fieldX w) (fieldY w) (fieldN w) := by
  rw [decodeWord_of_op h (by decide)]; rfl

theorem decodeWord_opE {w : Word} (h : fieldOp w = 0xE#4) : decodeWord w = .nopE (fieldNnn w) := by
  rw [decodeWord_of_op h (by decide)]; simp [decodeUnrecognised, h]

theorem decodeWord_opF {w : Word} (h : fieldOp w = 0xF#4) : decodeWord w = decodeTimer w := by
  rw [decodeWord_of_op h (by decide)]; rfl

/-! ### The decoder on bytes -/

@[simp] theorem decode_two (h l : Byte) (rest : List Byte) :
    decode (h :: l :: rest) = .ok (decodeWord (wordOfBytes h l)) := rfl

theorem decode_ok_iff (h l : Byte) (i : Instr) : decode [h, l] = .ok i ↔ decodeWord (wordOfBytes h l) = i := by
  simp

end Sys2Proof
end

