-- ==== Sys2Proof/Laws/State.lean ====
section
/-! SUPPORT. One lemma per field per update of the state, and what the accessors read after each update. -/

namespace Sys2Proof.Machine

variable (s : State)

/-! ### setV -/

@[simp] theorem setV_v (r : Nibble) (b : Byte) : (s.setV r b).v = s.v.set r.toNat b r.isLt := rfl
@[simp] theorem setV_pc (r : Nibble) (b : Byte) : (s.setV r b).pc = s.pc := rfl
@[simp] theorem setV_index (r : Nibble) (b : Byte) : (s.setV r b).index = s.index := rfl
@[simp] theorem setV_dt (r : Nibble) (b : Byte) : (s.setV r b).dt = s.dt := rfl
@[simp] theorem setV_st (r : Nibble) (b : Byte) : (s.setV r b).st = s.st := rfl
@[simp] theorem setV_fault (r : Nibble) (b : Byte) : (s.setV r b).fault = s.fault := rfl
@[simp] theorem setV_sp (r : Nibble) (b : Byte) : (s.setV r b).sp = s.sp := rfl
@[simp] theorem setV_stack (r : Nibble) (b : Byte) : (s.setV r b).stack = s.stack := rfl
@[simp] theorem setV_fb (r : Nibble) (b : Byte) : (s.setV r b).fb = s.fb := rfl
@[simp] theorem setV_mem (r : Nibble) (b : Byte) : (s.setV r b).mem = s.mem := rfl
@[simp] theorem setV_events (r : Nibble) (b : Byte) : (s.setV r b).events = s.events := rfl
@[simp] theorem setV_served (r : Nibble) (b : Byte) : (s.setV r b).served = s.served := rfl
@[simp] theorem setV_rnd (r : Nibble) (b : Byte) : (s.setV r b).rnd = s.rnd := rfl
@[simp] theorem setV_draws (r : Nibble) (b : Byte) : (s.setV r b).draws = s.draws := rfl
@[simp] theorem setV_outputs (r : Nibble) (b : Byte) : (s.setV r b).outputs = s.outputs := rfl
@[simp] theorem setV_pixel (r : Nibble) (b : Byte) (i j : Nat) : (s.setV r b).pixel i j = s.pixel i j := rfl
@[simp] theorem setV_memRead (r : Nibble) (b : Byte) (k : Nat) : (s.setV r b).memRead k = s.memRead k := rfl

/-! ### setPc -/

@[simp] theorem setPc_v (a : Word) : (s.setPc a).v = s.v := rfl
@[simp] theorem setPc_pc (a : Word) : (s.setPc a).pc = a := rfl
@[simp] theorem setPc_index (a : Word) : (s.setPc a).index = s.index := rfl
@[simp] theorem setPc_dt (a : Word) : (s.setPc a).dt = s.dt := rfl
@[simp] theorem setPc_st (a : Word) : (s.setPc a).st = s.st := rfl
@[simp] theorem setPc_fault (a : Word) : (s.setPc a).fault = s.fault := rfl
@[simp] theorem setPc_sp (a : Word) : (s.setPc a).sp = s.sp := rfl
@[simp] theorem setPc_stack (a : Word) : (s.setPc a).stack = s.stack := rfl
@[simp] theorem setPc_fb (a : Word) : (s.setPc a).fb = s.fb := rfl
@[simp] theorem setPc_mem (a : Word) : (s.setPc a).mem = s.mem := rfl
@[simp] theorem setPc_events (a : Word) : (s.setPc a).events = s.events := rfl
@[simp] theorem setPc_served (a : Word) : (s.setPc a).served = s.served := rfl
@[simp] theorem setPc_rnd (a : Word) : (s.setPc a).rnd = s.rnd := rfl
@[simp] theorem setPc_draws (a : Word) : (s.setPc a).draws = s.draws := rfl
@[simp] theorem setPc_outputs (a : Word) : (s.setPc a).outputs = s.outputs := rfl
@[simp] theorem setPc_getV (a : Word) (q : Nibble) : (s.setPc a).getV q = s.getV q := rfl
@[simp] theorem setPc_pixel (a : Word) (i j : Nat) : (s.setPc a).pixel i j = s.pixel i j := rfl
@[simp] theorem setPc_memRead (a : Word) (k : Nat) : (s.setPc a).memRead k = s.memRead k := rfl

/-! ### setIndex -/

@[simp] theorem setIndex_v (a : Word) : (s.setIndex a).v = s.v := rfl
@[simp] theorem setIndex_pc (a : Word) : (s.setIndex a).pc = s.pc := rfl
@[simp] theorem setIndex_index (a : Word) : (s.setIndex a).index = a := rfl
@[simp] theorem setIndex_dt (a : Word) : (s.setIndex a).dt = s.dt := rfl
@[simp] theorem setIndex_st (a : Word) : (s.setIndex a).st = s.st := rfl
@[simp] theorem setIndex_fault (a : Word) : (s.setIndex a).fault = s.fault := rfl
@[simp] theorem setIndex_sp (a : Word) : (s.setIndex a).sp = s.sp := rfl
@[simp] theorem setIndex_stack (a : Word) : (s.setIndex a).stack = s.stack := rfl
@[simp] theorem setIndex_fb (a : Word) : (s.setIndex a).fb = s.fb := rfl
@[simp] theorem setIndex_mem (a : Word) : (s.setIndex a).mem = s.mem := rfl
@[simp] theorem setIndex_events (a : Word) : (s.setIndex a).events = s.events := rfl
@[simp] theorem setIndex_served (a : Word) : (s.setIndex a).served = s.served := rfl
@[simp] theorem setIndex_rnd (a : Word) : (s.setIndex a).rnd = s.rnd := rfl
@[simp] theorem setIndex_draws (a : Word) : (s.setIndex a).draws = s.draws := rfl
@[simp] theorem setIndex_outputs (a : Word) : (s.setIndex a).outputs = s.outputs := rfl
@[simp] theorem setIndex_getV (a : Word) (q : Nibble) : (s.setIndex a).getV q = s.getV q := rfl
@[simp] theorem setIndex_pixel (a : Word) (i j : Nat) : (s.setIndex a).pixel i j = s.pixel i j := rfl
@[simp] theorem setIndex_memRead (a : Word) (k : Nat) : (s.setIndex a).memRead k = s.memRead k := rfl

/-! ### setDt -/

@[simp] theorem setDt_v (b : Byte) : (s.setDt b).v = s.v := rfl
@[simp] theorem setDt_pc (b : Byte) : (s.setDt b).pc = s.pc := rfl
@[simp] theorem setDt_index (b : Byte) : (s.setDt b).index = s.index := rfl
@[simp] theorem setDt_dt (b : Byte) : (s.setDt b).dt = b := rfl
@[simp] theorem setDt_st (b : Byte) : (s.setDt b).st = s.st := rfl
@[simp] theorem setDt_fault (b : Byte) : (s.setDt b).fault = s.fault := rfl
@[simp] theorem setDt_sp (b : Byte) : (s.setDt b).sp = s.sp := rfl
@[simp] theorem setDt_stack (b : Byte) : (s.setDt b).stack = s.stack := rfl
@[simp] theorem setDt_fb (b : Byte) : (s.setDt b).fb = s.fb := rfl
@[simp] theorem setDt_mem (b : Byte) : (s.setDt b).mem = s.mem := rfl
@[simp] theorem setDt_events (b : Byte) : (s.setDt b).events = s.events := rfl
@[simp] theorem setDt_served (b : Byte) : (s.setDt b).served = s.served := rfl
@[simp] theorem setDt_rnd (b : Byte) : (s.setDt b).rnd = s.rnd := rfl
@[simp] theorem setDt_draws (b : Byte) : (s.setDt b).draws = s.draws := rfl
@[simp] theorem setDt_outputs (b : Byte) : (s.setDt b).outputs = s.outputs := rfl
@[simp] theorem setDt_getV (b : Byte) (q : Nibble) : (s.setDt b).getV q = s.getV q := rfl
@[simp] theorem setDt_pixel (b : Byte) (i j : Nat) : (s.setDt b).pixel i j = s.pixel i j := rfl
@[simp] theorem setDt_memRead (b : Byte) (k : Nat) : (s.setDt b).memRead k = s.memRead k := rfl

/-! ### setSt -/

@[simp] theorem setSt_v (b : Byte) : (s.setSt b).v = s.v := rfl
@[simp] theorem setSt_pc (b : Byte) : (s.setSt b).pc = s.pc := rfl
@[simp] theorem setSt_index (b : Byte) : (s.setSt b).index = s.index := rfl
@[simp] theorem setSt_dt (b : Byte) : (s.setSt b).dt = s.dt := rfl
@[simp] theorem setSt_st (b : Byte) : (s.setSt b).st = b := rfl
@[simp] theorem setSt_fault (b : Byte) : (s.setSt b).fault = s.fault := rfl
@[simp] theorem setSt_sp (b : Byte) : (s.setSt b).sp = s.sp := rfl
@[simp] theorem setSt_stack (b : Byte) : (s.setSt b).stack = s.stack := rfl
@[simp] theorem setSt_fb (b : Byte) : (s.setSt b).fb = s.fb := rfl
@[simp] theorem setSt_mem (b : Byte) : (s.setSt b).mem = s.mem := rfl
@[simp] theorem setSt_events (b : Byte) : (s.setSt b).events = s.events := rfl
@[simp] theorem setSt_served (b : Byte) : (s.setSt b).served = s.served := rfl
@[simp] theorem setSt_rnd (b : Byte) : (s.setSt b).rnd = s.rnd := rfl
@[simp] theorem setSt_draws (b : Byte) : (s.setSt b).draws = s.draws := rfl
@[simp] theorem setSt_outputs (b : Byte) : (s.setSt b).outputs = s.outputs := rfl
@[simp] theorem setSt_getV (b : Byte) (q : Nibble) : (s.setSt b).getV q = s.getV q := rfl
@[simp] theorem setSt_pixel (b : Byte) (i j : Nat) : (s.setSt b).pixel i j = s.pixel i j := rfl
@[simp] theorem setSt_memRead (b : Byte) (k : Nat) : (s.setSt b).memRead k = s.memRead k := rfl

/-! ### setFb -/

@[simp] theorem setFb_v (f : Framebuffer) : (s.setFb f).v = s.v := rfl
@[simp] theorem setFb_pc (f : Framebuffer) : (s.setFb f).pc = s.pc := rfl
@[simp] theorem setFb_index (f : Framebuffer) : (s.setFb f).index = s.index := rfl
@[simp] theorem setFb_dt (f : Framebuffer) : (s.setFb f).dt = s.dt := rfl
@[simp] theorem setFb_st (f : Framebuffer) : (s.setFb f).st = s.st := rfl
@[simp] theorem setFb_fault (f : Framebuffer) : (s.setFb f).fault = s.fault := rfl
@[simp] theorem setFb_sp (f : Framebuffer) : (s.setFb f).sp = s.sp := rfl
@[simp] theorem setFb_stack (f : Framebuffer) : (s.setFb f).stack = s.stack := rfl
@[simp] theorem setFb_fb (f : Framebuffer) : (s.setFb f).fb = f := rfl
@[simp] theorem setFb_mem (f : Framebuffer) : (s.setFb f).mem = s.mem := rfl
@[simp] theorem setFb_events (f : Framebuffer) : (s.setFb f).events = s.events := rfl
@[simp] theorem setFb_served (f : Framebuffer) : (s.setFb f).served = s.served := rfl
@[simp] theorem setFb_rnd (f : Framebuffer) : (s.setFb f).rnd = s.rnd := rfl
@[simp] theorem setFb_draws (f : Framebuffer) : (s.setFb f).draws = s.draws := rfl
@[simp] theorem setFb_outputs (f : Framebuffer) : (s.setFb f).outputs = s.outputs := rfl
@[simp] theorem setFb_getV (f : Framebuffer) (q : Nibble) : (s.setFb f).getV q = s.getV q := rfl
@[simp] theorem setFb_pixel (f : Framebuffer) (i j : Nat) : (s.setFb f).pixel i j = Framebuffer.get f i j := rfl
@[simp] theorem setFb_memRead (f : Framebuffer) (k : Nat) : (s.setFb f).memRead k = s.memRead k := rfl

/-! ### fetched -/

@[simp] theorem fetched_v (rnd : Option Byte) : (s.fetched rnd).v = s.v := rfl
@[simp] theorem fetched_pc (rnd : Option Byte) : (s.fetched rnd).pc = s.pc + 2#16 := rfl
@[simp] theorem fetched_index (rnd : Option Byte) : (s.fetched rnd).index = s.index := rfl
@[simp] theorem fetched_dt (rnd : Option Byte) : (s.fetched rnd).dt = s.dt := rfl
@[simp] theorem fetched_st (rnd : Option Byte) : (s.fetched rnd).st = s.st := rfl
@[simp] theorem fetched_fault (rnd : Option Byte) : (s.fetched rnd).fault = s.fault := rfl
@[simp] theorem fetched_sp (rnd : Option Byte) : (s.fetched rnd).sp = s.sp := rfl
@[simp] theorem fetched_stack (rnd : Option Byte) : (s.fetched rnd).stack = s.stack := rfl
@[simp] theorem fetched_fb (rnd : Option Byte) : (s.fetched rnd).fb = s.fb := rfl
@[simp] theorem fetched_mem (rnd : Option Byte) : (s.fetched rnd).mem = s.mem := rfl
@[simp] theorem fetched_events (rnd : Option Byte) : (s.fetched rnd).events = s.events := rfl
@[simp] theorem fetched_served (rnd : Option Byte) : (s.fetched rnd).served = s.served := rfl
@[simp] theorem fetched_rnd (rnd : Option Byte) : (s.fetched rnd).rnd = rnd := rfl
@[simp] theorem fetched_draws (rnd : Option Byte) : (s.fetched rnd).draws = s.draws := rfl
@[simp] theorem fetched_outputs (rnd : Option Byte) : (s.fetched rnd).outputs = s.outputs := rfl
@[simp] theorem fetched_getV (rnd : Option Byte) (q : Nibble) : (s.fetched rnd).getV q = s.getV q := rfl
@[simp] theorem fetched_pixel (rnd : Option Byte) (i j : Nat) : (s.fetched rnd).pixel i j = s.pixel i j := rfl
@[simp] theorem fetched_memRead (rnd : Option Byte) (k : Nat) : (s.fetched rnd).memRead k = s.memRead k := rfl

/-! ### beforeFetch -/

@[simp] theorem beforeFetch_v : (s.beforeFetch).v = s.v := rfl
@[simp] theorem beforeFetch_pc : (s.beforeFetch).pc = s.pc - 2#16 := rfl
@[simp] theorem beforeFetch_index : (s.beforeFetch).index = s.index := rfl
@[simp] theorem beforeFetch_dt : (s.beforeFetch).dt = s.dt := rfl
@[simp] theorem beforeFetch_st : (s.beforeFetch).st = s.st := rfl
@[simp] theorem beforeFetch_fault : (s.beforeFetch).fault = s.fault := rfl
@[simp] theorem beforeFetch_sp : (s.beforeFetch).sp = s.sp := rfl
@[simp] theorem beforeFetch_stack : (s.beforeFetch).stack = s.stack := rfl
@[simp] theorem beforeFetch_fb : (s.beforeFetch).fb = s.fb := rfl
@[simp] theorem beforeFetch_mem : (s.beforeFetch).mem = s.mem := rfl
@[simp] theorem beforeFetch_events : (s.beforeFetch).events = s.events := rfl
@[simp] theorem beforeFetch_served : (s.beforeFetch).served = s.served := rfl
@[simp] theorem beforeFetch_rnd : (s.beforeFetch).rnd = s.rnd := rfl
@[simp] theorem beforeFetch_draws : (s.beforeFetch).draws = s.draws := rfl
@[simp] theorem beforeFetch_outputs : (s.beforeFetch).outputs = s.outputs := rfl
@[simp] theorem beforeFetch_getV (q : Nibble) : (s.beforeFetch).getV q = s.getV q := rfl
@[simp] theorem beforeFetch_pixel (i j : Nat) : (s.beforeFetch).pixel i j = s.pixel i j := rfl
@[simp] theorem beforeFetch_memRead (k : Nat) : (s.beforeFetch).memRead k = s.memRead k := rfl

/-! ### drawn -/

@[simp] theorem drawn_v : (s.drawn).v = s.v := rfl
@[simp] theorem drawn_pc : (s.drawn).pc = s.pc := rfl
@[simp] theorem drawn_index : (s.drawn).index = s.index := rfl
@[simp] theorem drawn_dt : (s.drawn).dt = s.dt := rfl
@[simp] theorem drawn_st : (s.drawn).st = s.st := rfl
@[simp] theorem drawn_fault : (s.drawn).fault = s.fault := rfl
@[simp] theorem drawn_sp : (s.drawn).sp = s.sp := rfl
@[simp] theorem drawn_stack : (s.drawn).stack = s.stack := rfl
@[simp] theorem drawn_fb : (s.drawn).fb = s.fb := rfl
@[simp] theorem drawn_mem : (s.drawn).mem = s.mem := rfl
@[simp] theorem drawn_events : (s.drawn).events = s.events := rfl
@[simp] theorem drawn_served : (s.drawn).served = s.served := rfl
@[simp] theorem drawn_rnd : (s.drawn).rnd = s.rnd := rfl
@[simp] theorem drawn_draws : (s.drawn).draws = s.draws + 1 := rfl
@[simp] theorem drawn_outputs : (s.drawn).outputs = s.outputs := rfl
@[simp] theorem drawn_getV (q : Nibble) : (s.drawn).getV q = s.getV q := rfl
@[simp] theorem drawn_pixel (i j : Nat) : (s.drawn).pixel i j = s.pixel i j := rfl
@[simp] theorem drawn_memRead (k : Nat) : (s.drawn).memRead k = s.memRead k := rfl

/-! ### emit -/

@[simp] theorem emit_v (o : Output) : (s.emit o).v = s.v := rfl
@[simp] theorem emit_pc (o : Output) : (s.emit o).pc = s.pc := rfl
@[simp] theorem emit_index (o : Output) : (s.emit o).index = s.index := rfl
@[simp] theorem emit_dt (o : Output) : (s.emit o).dt = s.dt := rfl
@[simp] theorem emit_st (o : Output) : (s.emit o).st = s.st := rfl
@[simp] theorem emit_fault (o : Output) : (s.emit o).fault = s.fault := rfl
@[simp] theorem emit_sp (o : Output) : (s.emit o).sp = s.sp := rfl
@[simp] theorem emit_stack (o : Output) : (s.emit o).stack = s.stack := rfl
@[simp] theorem emit_fb (o : Output) : (s.emit o).fb = s.fb := rfl
@[simp] theorem emit_mem (o : Output) : (s.emit o).mem = s.mem := rfl
@[simp] theorem emit_events (o : Output) : (s.emit o).events = s.events := rfl
@[simp] theorem emit_served (o : Output) : (s.emit o).served = s.served := rfl
@[simp] theorem emit_rnd (o : Output) : (s.emit o).rnd = s.rnd := rfl
@[simp] theorem emit_draws (o : Output) : (s.emit o).draws = s.draws := rfl
@[simp] theorem emit_outputs (o : Output) : (s.emit o).outputs = s.outputs ++ [o] := rfl
@[simp] theorem emit_getV (o : Output) (q : Nibble) : (s.emit o).getV q = s.getV q := rfl
@[simp] theorem emit_pixel (o : Output) (i j : Nat) : (s.emit o).pixel i j = s.pixel i j := rfl
@[simp] theorem emit_memRead (o : Output) (k : Nat) : (s.emit o).memRead k = s.memRead k := rfl

/-! ### raise -/

@[simp] theorem raise_v (c : FaultCode) : (raise c s).v = s.v := rfl
@[simp] theorem raise_pc (c : FaultCode) : (raise c s).pc = s.pc := rfl
@[simp] theorem raise_index (c : FaultCode) : (raise c s).index = s.index := rfl
@[simp] theorem raise_dt (c : FaultCode) : (raise c s).dt = s.dt := rfl
@[simp] theorem raise_st (c : FaultCode) : (raise c s).st = s.st := rfl
@[simp] theorem raise_fault (c : FaultCode) : (raise c s).fault = c.code := rfl
@[simp] theorem raise_sp (c : FaultCode) : (raise c s).sp = s.sp := rfl
@[simp] theorem raise_stack (c : FaultCode) : (raise c s).stack = s.stack := rfl
@[simp] theorem raise_fb (c : FaultCode) : (raise c s).fb = s.fb := rfl
@[simp] theorem raise_mem (c : FaultCode) : (raise c s).mem = s.mem := rfl
@[simp] theorem raise_events (c : FaultCode) : (raise c s).events = s.events := rfl
@[simp] theorem raise_served (c : FaultCode) : (raise c s).served = s.served := rfl
@[simp] theorem raise_rnd (c : FaultCode) : (raise c s).rnd = s.rnd := rfl
@[simp] theorem raise_draws (c : FaultCode) : (raise c s).draws = s.draws := rfl
@[simp] theorem raise_outputs (c : FaultCode) : (raise c s).outputs = s.outputs := rfl
@[simp] theorem raise_getV (c : FaultCode) (q : Nibble) : (raise c s).getV q = s.getV q := rfl
@[simp] theorem raise_pixel (c : FaultCode) (i j : Nat) : (raise c s).pixel i j = s.pixel i j := rfl
@[simp] theorem raise_memRead (c : FaultCode) (k : Nat) : (raise c s).memRead k = s.memRead k := rfl

/-! ### query -/

@[simp] theorem query_v (x : BitVec 6) (y : BitVec 5) : (s.query x y).v = s.v := rfl
@[simp] theorem query_pc (x : BitVec 6) (y : BitVec 5) : (s.query x y).pc = s.pc := rfl
@[simp] theorem query_index (x : BitVec 6) (y : BitVec 5) : (s.query x y).index = s.index := rfl
@[simp] theorem query_dt (x : BitVec 6) (y : BitVec 5) : (s.query x y).dt = s.dt := rfl
@[simp] theorem query_st (x : BitVec 6) (y : BitVec 5) : (s.query x y).st = s.st := rfl
@[simp] theorem query_fault (x : BitVec 6) (y : BitVec 5) : (s.query x y).fault = s.fault := rfl
@[simp] theorem query_sp (x : BitVec 6) (y : BitVec 5) : (s.query x y).sp = s.sp := rfl
@[simp] theorem query_stack (x : BitVec 6) (y : BitVec 5) : (s.query x y).stack = s.stack := rfl
@[simp] theorem query_fb (x : BitVec 6) (y : BitVec 5) : (s.query x y).fb = s.fb := rfl
@[simp] theorem query_mem (x : BitVec 6) (y : BitVec 5) : (s.query x y).mem = s.mem := rfl
@[simp] theorem query_events (x : BitVec 6) (y : BitVec 5) : (s.query x y).events = s.events := rfl
@[simp] theorem query_served (x : BitVec 6) (y : BitVec 5) : (s.query x y).served = s.served := rfl
@[simp] theorem query_rnd (x : BitVec 6) (y : BitVec 5) : (s.query x y).rnd = s.rnd := rfl
@[simp] theorem query_draws (x : BitVec 6) (y : BitVec 5) : (s.query x y).draws = s.draws := rfl
@[simp] theorem query_outputs (x : BitVec 6) (y : BitVec 5) : (s.query x y).outputs = s.outputs ++ [.pixel x y (s.pixel x.toNat y.toNat)] := rfl
@[simp] theorem query_getV (x : BitVec 6) (y : BitVec 5) (q : Nibble) : (s.query x y).getV q = s.getV q := rfl
@[simp] theorem query_pixel (x : BitVec 6) (y : BitVec 5) (i j : Nat) : (s.query x y).pixel i j = s.pixel i j := rfl
@[simp] theorem query_memRead (x : BitVec 6) (y : BitVec 5) (k : Nat) : (s.query x y).memRead k = s.memRead k := rfl

/-! ### readFault -/

@[simp] theorem readFault_v : (s.readFault).v = s.v := rfl
@[simp] theorem readFault_pc : (s.readFault).pc = s.pc := rfl
@[simp] theorem readFault_index : (s.readFault).index = s.index := rfl
@[simp] theorem readFault_dt : (s.readFault).dt = s.dt := rfl
@[simp] theorem readFault_st : (s.readFault).st = s.st := rfl
@[simp] theorem readFault_fault : (s.readFault).fault = s.fault := rfl
@[simp] theorem readFault_sp : (s.readFault).sp = s.sp := rfl
@[simp] theorem readFault_stack : (s.readFault).stack = s.stack := rfl
@[simp] theorem readFault_fb : (s.readFault).fb = s.fb := rfl
@[simp] theorem readFault_mem : (s.readFault).mem = s.mem := rfl
@[simp] theorem readFault_events : (s.readFault).events = s.events := rfl
@[simp] theorem readFault_served : (s.readFault).served = s.served := rfl
@[simp] theorem readFault_rnd : (s.readFault).rnd = s.rnd := rfl
@[simp] theorem readFault_draws : (s.readFault).draws = s.draws := rfl
@[simp] theorem readFault_outputs : (s.readFault).outputs = s.outputs ++ [.faultCode s.fault] := rfl
@[simp] theorem readFault_getV (q : Nibble) : (s.readFault).getV q = s.getV q := rfl
@[simp] theorem readFault_pixel (i j : Nat) : (s.readFault).pixel i j = s.pixel i j := rfl
@[simp] theorem readFault_memRead (k : Nat) : (s.readFault).memRead k = s.memRead k := rfl

/-! ### The general registers (R10) -/

/-- A register reads what was last written to it, and a write leaves every other register alone. -/
@[simp] theorem getV_setV (r q : Nibble) (b : Byte) : (s.setV r b).getV q = if q = r then b else s.getV q := by
  unfold State.getV State.setV
  rw [Vector.getElem_set]
  by_cases h : q = r
  · simp [h]
  · have : r.toNat ≠ q.toNat := fun e => h (BitVec.eq_of_toNat_eq e.symm)
    simp [h, this]

/-- Two register files that read the same are the same. -/
theorem v_ext {s t : State} (h : ∀ r, t.getV r = s.getV r) : t.v = s.v := by
  apply Vector.ext
  intro i hi
  have := h (BitVec.ofNat 4 i)
  unfold State.getV at this
  simpa [Nat.mod_eq_of_lt hi] using this

/-- Writing a register twice leaves the second value. -/
@[simp] theorem setV_setV_same (r : Nibble) (b c : Byte) : (s.setV r b).setV r c = s.setV r c := by
  unfold State.setV
  simp

/-- Writes of two different registers commute. -/
theorem setV_comm {r q : Nibble} (h : r ≠ q) (b c : Byte) : (s.setV r b).setV q c = (s.setV q c).setV r b := by
  have hne : r.toNat ≠ q.toNat := fun e => h (BitVec.eq_of_toNat_eq e)
  unfold State.setV
  simp [Vector.set_comm _ _ hne]

/-- Writing to a register the value it holds changes nothing. -/
@[simp] theorem setV_getV_self (r : Nibble) : s.setV r (s.getV r) = s := by
  unfold State.setV State.getV
  simp

/-! ### Frames -/

theorem OnlyChanged.refl (rs : List Nibble) (ps : List Part) : OnlyChanged rs ps s s :=
  ⟨fun _ _ => rfl, fun p _ => by cases p <;> simp [Part.Same]⟩

/-- A register write changes only that register. -/
theorem OnlyChanged.setV {rs : List Nibble} {x : Nibble} (h : x ∈ rs) (ps : List Part) (b : Byte) :
    OnlyChanged rs ps s (s.setV x b) := by
  refine ⟨fun r hr => ?_, fun p _ => by cases p <;> simp [Part.Same]⟩
  have : r ≠ x := fun e => hr (e ▸ h)
  simp [this]

/-- Changes one after the other. -/
theorem OnlyChanged.trans {s t u : State} {rs : List Nibble} {ps : List Part} (h : OnlyChanged rs ps s t)
    (h' : OnlyChanged rs ps t u) : OnlyChanged rs ps s u := by
  refine ⟨fun r hr => (h'.1 r hr).trans (h.1 r hr), fun p hp => ?_⟩
  have h1 := h.2 p hp
  have h2 := h'.2 p hp
  cases p <;> simp only [Part.Same] at * <;> first | exact h2.trans h1 | exact fun a => (h2 a).trans (h1 a) | exact fun a b => (h2 a b).trans (h1 a b)

/-- The fetch advance and its undoing cancel (log 7). -/
@[simp] theorem beforeFetch_fetched (rnd : Option Byte) : (s.fetched rnd).beforeFetch = { s with rnd := rnd } := by
  unfold State.beforeFetch State.fetched
  simp

end Sys2Proof.Machine
end

