-- ==== Sys2Proof/Laws/Exec.lean ====
section
/-! SUPPORT. What each shared operation and each meaning can do, said once. -/

namespace Sys2Proof.Machine

variable (s : State)

/-! ### The stack (R17) -/

/-- All a push can do: with room, the word at index `SP` and one entry more in use; with none, nothing. -/
theorem push_cases (w : Word) :
    (∃ h : s.sp.val < 16,
        s.push w = some { s with stack := s.stack.set s.sp.val w h, sp := ⟨s.sp.val + 1, by omega⟩ }) ∨
      (s.sp.val = 16 ∧ s.push w = none) := by
  unfold State.push
  by_cases h : s.sp.val < 16
  · exact .inl ⟨h, by rw [dif_pos h]⟩
  · exact .inr ⟨by omega, by rw [dif_neg h]⟩

/-- All a pop can do: with an entry in use, that entry and one fewer in use; with none, nothing. -/
theorem pop_cases :
    (∃ h : 0 < s.sp.val, s.pop = some (s.stack[s.sp.val - 1]'(by omega), { s with sp := ⟨s.sp.val - 1, by omega⟩ })) ∨
      (s.sp.val = 0 ∧ s.pop = none) := by
  unfold State.pop
  by_cases h : 0 < s.sp.val
  · exact .inl ⟨h, by rw [dif_pos h]⟩
  · exact .inr ⟨by omega, by rw [dif_neg h]⟩

/-! ### Faults (R151, R152) -/

/-- The code of a fault is not `NONE`. -/
theorem code_ne_zero (c : FaultCode) : c.code ≠ 0#3 := by cases c <;> decide

theorem code_le (c : FaultCode) : c.code.toNat ≤ 4 := by cases c <;> decide

/-- Two faults with the same code are the same fault. -/
theorem code_injective {c d : FaultCode} (h : c.code = d.code) : c = d := by
  cases c <;> cases d <;> first | rfl | exact absurd h (by decide)

/-! ### The arms of the dispatch -/

theorem exec_cls : exec .cls s = execCls s := rfl
theorem exec_ret : exec .ret s = execRet s := rfl
theorem exec_jp (nnn : Addr) : exec (.jp nnn) s = execJp nnn s := rfl
theorem exec_call (nnn : Addr) : exec (.call nnn) s = execCall nnn s := rfl
theorem exec_ldVxKk (x : Nibble) (kk : Byte) : exec (.ldVxKk x kk) s = execLdVxKk x kk s := rfl
theorem exec_addVxKk (x : Nibble) (kk : Byte) : exec (.addVxKk x kk) s = execAddVxKk x kk s := rfl
theorem exec_ldVxVy (x y : Nibble) : exec (.ldVxVy x y) s = execLdVxVy x y s := rfl
theorem exec_orVxVy (x y : Nibble) : exec (.orVxVy x y) s = execOrVxVy x y s := rfl
theorem exec_andVxVy (x y : Nibble) : exec (.andVxVy x y) s = execAndVxVy x y s := rfl
theorem exec_xorVxVy (x y : Nibble) : exec (.xorVxVy x y) s = execXorVxVy x y s := rfl
theorem exec_addVxVy (x y : Nibble) : exec (.addVxVy x y) s = execAddVxVy x y s := rfl
theorem exec_subVxVy (x y : Nibble) : exec (.subVxVy x y) s = execSubVxVy x y s := rfl
theorem exec_shrVxVy (x y : Nibble) : exec (.shrVxVy x y) s = execShrVxVy x y s := rfl
theorem exec_shlVxVy (x y : Nibble) : exec (.shlVxVy x y) s = execShlVxVy x y s := rfl
theorem exec_ldI (nnn : Addr) : exec (.ldI nnn) s = execLdI nnn s := rfl
theorem exec_jpV0 (nnn : Addr) : exec (.jpV0 nnn) s = execJpV0 nnn s := rfl
theorem exec_rnd (x : Nibble) (kk : Byte) : exec (.rnd x kk) s = execRnd x kk s := rfl
theorem exec_drw (x y n : Nibble) : exec (.drw x y n) s = execDrw x y n s := rfl
theorem exec_ldVxDt (x : Nibble) : exec (.ldVxDt x) s = execLdVxDt x s := rfl
theorem exec_ldDtVx (x : Nibble) : exec (.ldDtVx x) s = execLdDtVx x s := rfl
theorem exec_ldStVx (x : Nibble) : exec (.ldStVx x) s = execLdStVx x s := rfl
theorem exec_nop0 (w : BitVec 12) : exec (.nop0 w) s = .next s := rfl
theorem exec_nop3 (w : BitVec 12) : exec (.nop3 w) s = .next s := rfl
theorem exec_nop4 (w : BitVec 12) : exec (.nop4 w) s = .next s := rfl
theorem exec_nop5 (w : BitVec 12) : exec (.nop5 w) s = .next s := rfl
theorem exec_nop9 (w : BitVec 12) : exec (.nop9 w) s = .next s := rfl
theorem exec_nopE (w : BitVec 12) : exec (.nopE w) s = .next s := rfl
theorem exec_nop8x7 (w : BitVec 8) : exec (.nop8x7 w) s = .next s := rfl
theorem exec_nop8x8 (w : BitVec 8) : exec (.nop8x8 w) s = .next s := rfl
theorem exec_nop8x9 (w : BitVec 8) : exec (.nop8x9 w) s = .next s := rfl
theorem exec_nop8xA (w : BitVec 8) : exec (.nop8xA w) s = .next s := rfl
theorem exec_nop8xB (w : BitVec 8) : exec (.nop8xB w) s = .next s := rfl
theorem exec_nop8xC (w : BitVec 8) : exec (.nop8xC w) s = .next s := rfl
theorem exec_nop8xD (w : BitVec 8) : exec (.nop8xD w) s = .next s := rfl
theorem exec_nop8xF (w : BitVec 8) : exec (.nop8xF w) s = .next s := rfl
theorem exec_nopF (w : BitVec 12) : exec (.nopF w) s = .next s := rfl

/-- A call: the return address is pushed and control goes to `nnn`, or the stack is full and the fault is taken (R82). -/
theorem exec_call_cases (nnn : Addr) :
    (∃ h : s.sp.val < 16, exec (.call nnn) s =
        .next { s with stack := s.stack.set s.sp.val s.pc h, sp := ⟨s.sp.val + 1, by omega⟩, pc := zext16 nnn }) ∨
      (s.sp.val = 16 ∧ exec (.call nnn) s = .next (raise .stackOverflow s.beforeFetch)) := by
  rw [exec_call]
  unfold execCall
  rcases push_cases s s.pc with ⟨h, e⟩ | ⟨h, e⟩
  · exact .inl ⟨h, by rw [e]; rfl⟩
  · exact .inr ⟨h, by rw [e]; rfl⟩

/-- A return: the entry last pushed goes to `PC`, or the stack is empty and the fault is taken (R80). -/
theorem exec_ret_cases :
    (∃ h : 0 < s.sp.val, exec .ret s =
        .next { s with sp := ⟨s.sp.val - 1, by omega⟩, pc := s.stack[s.sp.val - 1]'(by omega) }) ∨
      (s.sp.val = 0 ∧ exec .ret s = .next (raise .stackUnderflow s.beforeFetch)) := by
  rw [exec_ret]
  unfold execRet
  rcases pop_cases s with ⟨h, e⟩ | ⟨h, e⟩
  · exact .inl ⟨h, by rw [e]; rfl⟩
  · exact .inr ⟨h, by rw [e]; rfl⟩

/-- A draw: the sprite is drawn and the collision reported, or a row lies outside memory and the fault is taken (R121). -/
theorem exec_drw_cases (x y n : Nibble) :
    (s.spriteOutside y n = false ∧ exec (.drw x y n) s =
        .next ((s.setFb (s.drawSprite (s.startColumn x) (s.startRow y) (s.drawnRows y n)).1).setV flagReg
          (flagByte (s.drawSprite (s.startColumn x) (s.startRow y) (s.drawnRows y n)).2))) ∨
      (s.spriteOutside y n = true ∧ exec (.drw x y n) s = .next (raise .spriteOutOfBounds s.beforeFetch)) := by
  rw [exec_drw]
  unfold execDrw
  cases h : s.spriteOutside y n
  · exact .inl ⟨rfl, rfl⟩
  · exact .inr ⟨rfl, rfl⟩

/-- The bounds check of a draw in numbers (R121, R151). -/
theorem spriteOutside_iff (y n : Nibble) :
    s.spriteOutside y n = true ↔ 0 < s.drawnRows y n ∧ 0x0FFF < s.index.toNat + s.drawnRows y n - 1 := by
  unfold State.spriteOutside
  simp

/-- A flag is 0 or 1 (R11). -/
theorem flagByte_cases (b : Bool) : flagByte b = 0#8 ∨ flagByte b = 1#8 := by
  cases b
  · exact .inl rfl
  · exact .inr rfl

/-- A zero-extended address is at most 0xFFF (R63). -/
theorem zext16_le (nnn : Addr) : (zext16 nnn).toNat ≤ 0x0FFF := by
  unfold zext16
  rw [BitVec.toNat_setWidth]
  have := nnn.isLt
  omega

theorem zext16_toNat (nnn : Addr) : (zext16 nnn).toNat = nnn.toNat := by
  unfold zext16
  rw [BitVec.toNat_setWidth]
  have := nnn.isLt
  omega

/-- The target of a jump with offset is the exact sum, at most 0x10FE (R83). -/
theorem offsetTarget_toNat (nnn : Addr) : (s.offsetTarget nnn).toNat = nnn.toNat + (s.getV 0x0#4).toNat := by
  unfold State.offsetTarget
  rw [BitVec.toNat_add, zext16_toNat, BitVec.toNat_setWidth]
  have := nnn.isLt
  have := (s.getV 0x0#4).isLt
  omega

/-- No instruction ends in a fault outcome or a refusal (R25). -/
theorem exec_next (i : Instr) : ∃ t, exec i s = .next t := by
  cases i
  case ret => rcases exec_ret_cases s with ⟨_, e⟩ | ⟨_, e⟩ <;> exact ⟨_, e⟩
  case call nnn => rcases exec_call_cases s nnn with ⟨_, e⟩ | ⟨_, e⟩ <;> exact ⟨_, e⟩
  case drw x y n => rcases exec_drw_cases s x y n with ⟨_, e⟩ | ⟨_, e⟩ <;> exact ⟨_, e⟩
  all_goals exact ⟨_, rfl⟩

/-- No instruction touches what is still to happen (R24). -/
theorem exec_history {i : Instr} {t : State} (h : exec i s = .next t) : t.events = s.events ∧ t.served = s.served := by
  cases i
  case ret => rcases exec_ret_cases s with ⟨_, e⟩ | ⟨_, e⟩ <;> rw [e] at h <;> cases h <;> exact ⟨rfl, rfl⟩
  case call nnn => rcases exec_call_cases s nnn with ⟨_, e⟩ | ⟨_, e⟩ <;> rw [e] at h <;> cases h <;> exact ⟨rfl, rfl⟩
  case drw x y n => rcases exec_drw_cases s x y n with ⟨_, e⟩ | ⟨_, e⟩ <;> rw [e] at h <;> cases h <;> exact ⟨rfl, rfl⟩
  all_goals
    cases h
    exact ⟨rfl, rfl⟩

/-- Which faults the execute phase of an instruction raises, and when: an instruction takes its fault, or leaves `FAULT` as
it is and its fault's condition does not hold (R151). -/
theorem exec_faults {i : Instr} {t : State} (h : exec i s = .next t) :
    (∃ x y n, i = .drw x y n ∧ s.spriteOutside y n = true ∧ t = raise .spriteOutOfBounds s.beforeFetch) ∨
    (i = .ret ∧ s.sp.val = 0 ∧ t = raise .stackUnderflow s.beforeFetch) ∨
    (∃ nnn, i = .call nnn ∧ s.sp.val = 16 ∧ t = raise .stackOverflow s.beforeFetch) ∨
    (t.fault = s.fault ∧ (∀ x y n, i = .drw x y n → s.spriteOutside y n = false) ∧ (i = .ret → s.sp.val ≠ 0) ∧
      ∀ nnn, i = .call nnn → s.sp.val ≠ 16) := by
  cases i
  case ret =>
    rcases exec_ret_cases s with ⟨h1, e⟩ | ⟨h1, e⟩ <;> rw [e] at h <;> cases h
    · exact .inr (.inr (.inr ⟨rfl, by simp, fun _ => by omega, by simp⟩))
    · exact .inr (.inl ⟨rfl, h1, rfl⟩)
  case call nnn =>
    rcases exec_call_cases s nnn with ⟨h1, e⟩ | ⟨h1, e⟩ <;> rw [e] at h <;> cases h
    · exact .inr (.inr (.inr ⟨rfl, by simp, by simp, fun _ _ => by omega⟩))
    · exact .inr (.inr (.inl ⟨_, rfl, h1, rfl⟩))
  case drw x y n =>
    rcases exec_drw_cases s x y n with ⟨h1, e⟩ | ⟨h1, e⟩ <;> rw [e] at h <;> cases h
    · refine .inr (.inr (.inr ⟨rfl, ?_, by simp, by simp⟩))
      rintro x' y' n' h'
      cases h'
      exact h1
    · exact .inl ⟨_, _, _, rfl, h1, rfl⟩
  all_goals
    cases h
    exact .inr (.inr (.inr ⟨rfl, by simp, by simp, by simp⟩))

end Sys2Proof.Machine
end

