-- ==== Sys2Proof/Laws/Framebuffer.lean ====
section
/-! SUPPORT. The laws of the framebuffer and of the pixel engine's inner loops. -/

namespace Sys2Proof.Machine

/-- A cell reads what was last set, and a set leaves every other cell alone. -/
theorem get_set (f : Framebuffer) (x y u w : Nat) (b : Bool) :
    Framebuffer.get (Framebuffer.set f x y b) u w =
      if x = u ∧ y = w ∧ u < 64 ∧ w < 32 then b else Framebuffer.get f u w := by
  unfold Framebuffer.get Framebuffer.set
  by_cases hxy : x < 64 ∧ y < 32
  · by_cases huw : u < 64 ∧ w < 32
    · simp only [hxy, huw, and_self, dif_pos, and_true]
      by_cases hy : y = w
      · subst hy
        by_cases hx : x = u
        · subst hx; simp
        · simp [hx]
      · simp [hy]
    · simp [huw]
  · simp only [hxy, dif_neg, not_false_eq_true]
    rw [if_neg]
    rintro ⟨rfl, rfl, h1, h2⟩
    exact hxy ⟨h1, h2⟩

@[simp] theorem get_blank (x y : Nat) : Framebuffer.get Framebuffer.blank x y = false := by
  unfold Framebuffer.get Framebuffer.blank
  split <;> simp

/-- No cell outside the grid is on. -/
theorem get_outside (f : Framebuffer) {x y : Nat} (h : ¬(x < 64 ∧ y < 32)) : Framebuffer.get f x y = false := by
  unfold Framebuffer.get
  rw [dif_neg h]

/-- Two framebuffers with the same cells are the same. -/
theorem framebuffer_ext {f g : Framebuffer} (h : ∀ x y, x < 64 → y < 32 → Framebuffer.get f x y = Framebuffer.get g x y) :
    f = g := by
  apply Vector.ext
  intro y hy
  apply Vector.ext
  intro x hx
  simpa [Framebuffer.get, hx, hy] using h x y hx hy

/-! ### One sprite bit (R121) -/

/-- One sprite bit changes at most the cell under it, by exclusive OR. -/
theorem drawBit_get (b : Byte) (x0 y : Nat) (p : Canvas) (c u w : Nat) (hy : y < 32) :
    Framebuffer.get (drawBit b x0 y p c).1 u w =
      (Framebuffer.get p.1 u w ^^ (decide (u = x0 + c ∧ w = y ∧ u < 64) && b.getLsbD (7 - c))) := by
  unfold drawBit
  split
  · next h =>
    have : ¬(u = x0 + c ∧ w = y ∧ u < 64) := by omega
    simp [this]
  · next h =>
    by_cases hb : b.getLsbD (7 - c) = true
    · rw [if_pos hb, hb]
      by_cases hu : u = x0 + c ∧ w = y
      · obtain ⟨rfl, rfl⟩ := hu
        split
        · next hp => simp [get_set, hp, hy]
        · next hp => simp [get_set, hp, hy]
      · have h1 : ¬(u = x0 + c ∧ w = y ∧ u < 64) := fun e => hu ⟨e.1, e.2.1⟩
        have h2 : ¬(x0 + c = u ∧ y = w ∧ u < 64 ∧ w < 32) := fun e => hu ⟨e.1.symm, e.2.1.symm⟩
        split <;> simp [get_set, h1, h2]
    · rw [if_neg hb]
      simp only [Bool.not_eq_true] at hb
      simp [hb]

/-- One sprite bit is a collision exactly when it is 1, on the display, and over a pixel that is on. -/
theorem drawBit_hit (b : Byte) (x0 y : Nat) (p : Canvas) (c : Nat) :
    (drawBit b x0 y p c).2 =
      (p.2 || (decide (x0 + c < 64) && b.getLsbD (7 - c) && Framebuffer.get p.1 (x0 + c) y)) := by
  unfold drawBit
  split
  · next h => simp [show ¬ (x0 + c < 64) by omega]
  · next h =>
    have : x0 + c < 64 := by omega
    by_cases hb : b.getLsbD (7 - c) = true <;> by_cases hp : Framebuffer.get p.1 (x0 + c) y = true <;> simp [hb, hp, this]

/-! ### One sprite row -/

/-- The first `k` bits of a sprite row. -/
theorem drawBits_get (b : Byte) (x0 y : Nat) (hy : y < 32) (p : Canvas) (k u w : Nat) (hk : k ≤ 8) :
    Framebuffer.get ((List.range k).foldl (drawBit b x0 y) p).1 u w =
      (Framebuffer.get p.1 u w ^^ (decide (x0 ≤ u ∧ u < x0 + k ∧ w = y ∧ u < 64) && b.getLsbD (7 - (u - x0)))) := by
  induction k with
  | zero =>
    have e : ¬(x0 ≤ u ∧ u < x0 + 0 ∧ w = y ∧ u < 64) := by omega
    rw [decide_eq_false e, Bool.false_and, Bool.xor_false]
    rfl
  | succ k ih =>
    rw [List.range_succ, List.foldl_append, List.foldl_cons, List.foldl_nil, drawBit_get _ _ _ _ _ _ _ hy, ih (by omega)]
    by_cases h : u = x0 + k
    · subst h
      simp
    · have e : (x0 ≤ u ∧ u < x0 + (k + 1) ∧ w = y ∧ u < 64) ↔ (x0 ≤ u ∧ u < x0 + k ∧ w = y ∧ u < 64) := by omega
      simp [e, h]

/-- A sprite row changes only cells of its own row within 8 columns of its start, by exclusive OR with its bits (R122). -/
theorem drawRow_get (b : Byte) (x0 y : Nat) (hy : y < 32) (p : Canvas) (u w : Nat) :
    Framebuffer.get (drawRow b x0 y p).1 u w =
      (Framebuffer.get p.1 u w ^^ (decide (x0 ≤ u ∧ u < x0 + 8 ∧ w = y ∧ u < 64) && b.getLsbD (7 - (u - x0)))) :=
  drawBits_get b x0 y hy p 8 u w (Nat.le_refl 8)

/-- The first `k` bits of a sprite row report a collision exactly when one of them is 1 over a pixel that was on. -/
theorem drawBits_hit (b : Byte) (x0 y : Nat) (hy : y < 32) (p : Canvas) (k : Nat) (hk : k ≤ 8) :
    ((List.range k).foldl (drawBit b x0 y) p).2 = true ↔
      p.2 = true ∨ ∃ c, c < k ∧ x0 + c < 64 ∧ b.getLsbD (7 - c) = true ∧ Framebuffer.get p.1 (x0 + c) y = true := by
  induction k with
  | zero => simp
  | succ k ih =>
    have unchanged : Framebuffer.get ((List.range k).foldl (drawBit b x0 y) p).1 (x0 + k) y =
        Framebuffer.get p.1 (x0 + k) y := by
      have e : ¬(x0 ≤ x0 + k ∧ x0 + k < x0 + k ∧ y = y ∧ x0 + k < 64) := by omega
      rw [drawBits_get b x0 y hy p k _ _ (by omega), decide_eq_false e, Bool.false_and, Bool.xor_false]
    rw [List.range_succ, List.foldl_append, List.foldl_cons, List.foldl_nil, drawBit_hit, unchanged]
    simp only [Bool.or_eq_true, Bool.and_eq_true, decide_eq_true_eq, ih (by omega)]
    constructor
    · rintro ((h | ⟨c, h1, h2⟩) | ⟨⟨h1, h2⟩, h3⟩)
      · exact .inl h
      · exact .inr ⟨c, by omega, h2⟩
      · exact .inr ⟨k, by omega, h1, h2, h3⟩
    · rintro (h | ⟨c, h1, h2, h3, h4⟩)
      · exact .inl (.inl h)
      · by_cases hc : c = k
        · subst hc; exact .inr ⟨⟨h2, h3⟩, h4⟩
        · exact .inl (.inr ⟨c, by omega, h2, h3, h4⟩)

/-- A sprite row reports a collision exactly when one of its bits is 1 over a pixel that was on. -/
theorem drawRow_hit (b : Byte) (x0 y : Nat) (hy : y < 32) (p : Canvas) :
    (drawRow b x0 y p).2 = true ↔
      p.2 = true ∨ ∃ c, c < 8 ∧ x0 + c < 64 ∧ b.getLsbD (7 - c) = true ∧ Framebuffer.get p.1 (x0 + c) y = true :=
  drawBits_hit b x0 y hy p 8 (Nat.le_refl 8)

/-! ### Where a sprite is drawn -/

theorem startColumn_lt (s : State) (x : Nibble) : s.startColumn x < 64 := by
  unfold State.startColumn
  have : (s.getV x &&& 63#8).toNat ≤ (63#8).toNat := by
    rw [BitVec.toNat_and]; exact Nat.and_le_right
  simp at this ⊢
  omega

theorem startRow_lt (s : State) (y : Nibble) : s.startRow y < 32 := by
  unfold State.startRow
  have : (s.getV y &&& 31#8).toNat ≤ (31#8).toNat := by
    rw [BitVec.toNat_and]; exact Nat.and_le_right
  simp at this ⊢
  omega

/-- Every row drawn is on the display. -/
theorem drawnRow_on_display (s : State) (y n : Nibble) {r : Nat} (h : r < s.drawnRows y n) : s.startRow y + r < 32 := by
  unfold State.drawnRows at h
  omega

end Sys2Proof.Machine
end

