-- ==== Sys2Proof/Laws/Memory.lean ====
section
/-! SUPPORT. The laws of memory: a read after a write, and that every memory operation keeps the canonical form. -/

namespace Sys2Proof.Machine

/-! ### Reading -/

@[simp] theorem read_nil (a : Nat) : Memory.read [] a = unlisted a := rfl

theorem read_cons (k : Nat) (b : Byte) (rest : Memory) (a : Nat) :
    Memory.read ((k, b) :: rest) a = if k = a then b else Memory.read rest a := rfl

theorem wfFrom_cons (lo a : Nat) (b : Byte) (rest : Memory) :
    Memory.wfFrom lo ((a, b) :: rest) = true ↔
      lo ≤ a ∧ a < Config.memSize ∧ b ≠ unlisted a ∧ Memory.wfFrom (a + 1) rest = true := by
  simp [Memory.wfFrom, and_assoc]

/-- A canonical memory may be seen from any lower address. -/
theorem wfFrom_mono {lo lo' : Nat} (h : lo' ≤ lo) {m : Memory} (hm : Memory.wfFrom lo m = true) :
    Memory.wfFrom lo' m = true := by
  cases m with
  | nil => rfl
  | cons c rest =>
    obtain ⟨a, b⟩ := c
    rw [wfFrom_cons] at hm ⊢
    exact ⟨h.trans hm.1, hm.2⟩

/-- Below its first possible address a canonical memory lists nothing. -/
theorem read_below {lo : Nat} {m : Memory} (hm : Memory.wfFrom lo m = true) {a : Nat} (ha : a < lo) :
    m.read a = unlisted a := by
  induction m generalizing lo with
  | nil => rfl
  | cons c rest ih =>
    obtain ⟨k, b⟩ := c
    rw [wfFrom_cons] at hm
    rw [read_cons, if_neg (by omega)]
    exact ih hm.2.2.2 (by omega)

/-! ### Writing -/

theorem read_cellFor (a : Nat) (b : Byte) (rest : Memory) (c : Nat) :
    Memory.read (cellFor a b rest) c = if a = c ∧ b ≠ unlisted a then b else Memory.read rest c := by
  unfold cellFor
  by_cases h : b = unlisted a <;> simp [h, read_cons]

/-- A write leaves every other address alone. -/
theorem read_put_other (m : Memory) {a c : Nat} (b : Byte) (h : c ≠ a) : (m.put a b).read c = m.read c := by
  induction m with
  | nil => simp [Memory.put, read_cellFor, h.symm]
  | cons d rest ih =>
    obtain ⟨k, e⟩ := d
    unfold Memory.put
    split
    · rw [read_cons, read_cons, ih]
    · split
      · next hk => simp [read_cellFor, h.symm, read_cons, hk]
      · simp [read_cellFor, h.symm]

/-- A read after a write to the same address gives the byte written. -/
theorem read_put_same {lo : Nat} {m : Memory} (hm : Memory.wfFrom lo m = true) (a : Nat) (b : Byte) :
    (m.put a b).read a = b := by
  induction m generalizing lo with
  | nil =>
    by_cases h : b = unlisted a <;> simp [Memory.put, read_cellFor, h]
  | cons d rest ih =>
    obtain ⟨k, e⟩ := d
    rw [wfFrom_cons] at hm
    unfold Memory.put
    split
    · rw [read_cons, if_neg (by omega)]
      exact ih hm.2.2.2
    · split
      · rw [read_cellFor]
        by_cases h : b = unlisted a
        · simp [h, read_below hm.2.2.2 (by omega : a < k + 1)]
        · simp [h]
      · rw [read_cellFor]
        by_cases h : b = unlisted a
        · rw [if_neg (by simp [h]), read_cons, if_neg (by assumption), read_below hm.2.2.2 (by omega), h]
        · simp [h]

/-- A write keeps the canonical form. -/
theorem wfFrom_put {lo a : Nat} {m : Memory} (hm : Memory.wfFrom lo m = true) (hlo : lo ≤ a) (ha : a < Config.memSize)
    (b : Byte) : Memory.wfFrom lo (m.put a b) = true := by
  induction m generalizing lo with
  | nil =>
    by_cases h : b = unlisted a
    · simp [Memory.put, cellFor, h, Memory.wfFrom]
    · simp [Memory.put, cellFor, h, Memory.wfFrom, hlo, ha]
  | cons d rest ih =>
    obtain ⟨k, e⟩ := d
    have hc := hm
    rw [wfFrom_cons] at hm
    unfold Memory.put
    split
    · rw [wfFrom_cons]
      exact ⟨hm.1, hm.2.1, hm.2.2.1, ih hm.2.2.2 (by omega)⟩
    · split
      · next hk =>
        subst hk
        unfold cellFor
        split
        · exact wfFrom_mono (by omega) hm.2.2.2
        · rw [wfFrom_cons]
          exact ⟨hm.1, ha, by assumption, hm.2.2.2⟩
      · unfold cellFor
        split
        · exact hc
        · rw [wfFrom_cons]
          refine ⟨hlo, ha, by assumption, ?_⟩
          rw [wfFrom_cons]
          exact ⟨by omega, hm.2⟩

@[simp] theorem wf_nil : Memory.wf [] = true := rfl

theorem wf_write {m : Memory} (hm : m.wf = true) (a : Nat) (b : Byte) : (m.write a b).wf = true := by
  unfold Memory.write
  split
  · exact wfFrom_put hm (Nat.zero_le a) (by assumption) b
  · exact hm

theorem read_write_same {m : Memory} (hm : m.wf = true) {a : Nat} (ha : a < Config.memSize) (b : Byte) :
    (m.write a b).read a = b := by
  unfold Memory.write
  rw [if_pos ha]
  exact read_put_same hm a b

theorem read_write_other (m : Memory) {a c : Nat} (h : c ≠ a) (b : Byte) : (m.write a b).read c = m.read c := by
  unfold Memory.write
  split
  · exact read_put_other m b h
  · rfl

/-! ### The load of an image (R43) -/

theorem wf_load {m : Memory} (hm : m.wf = true) (a : Nat) (bs : List Byte) : (m.load a bs).wf = true := by
  induction bs generalizing m a with
  | nil => exact hm
  | cons b bs ih => exact ih (wf_write hm a b) (a + 1)

/-- A load leaves the addresses below it alone. -/
theorem read_load_below (m : Memory) {a c : Nat} (h : c < a) (bs : List Byte) : (m.load a bs).read c = m.read c := by
  induction bs generalizing m a with
  | nil => rfl
  | cons b bs ih =>
    unfold Memory.load
    rw [ih _ (by omega), read_write_other _ (by omega)]

/-- A load leaves the addresses above it alone. -/
theorem read_load_above (m : Memory) {a c : Nat} (bs : List Byte) (h : a + bs.length ≤ c) :
    (m.load a bs).read c = m.read c := by
  induction bs generalizing m a with
  | nil => rfl
  | cons b bs ih =>
    simp only [List.length_cons] at h
    unfold Memory.load
    rw [ih _ (by omega), read_write_other _ (by omega)]

/-- Byte `k` of the list stands at address `a + k`. -/
theorem read_load {m : Memory} (hm : m.wf = true) {a : Nat} {bs : List Byte} (hfit : a + bs.length ≤ Config.memSize)
    {k : Nat} (hk : k < bs.length) : (m.load a bs).read (a + k) = bs[k] := by
  induction bs generalizing m a k with
  | nil => simp at hk
  | cons b bs ih =>
    simp only [List.length_cons] at hfit hk
    unfold Memory.load
    cases k with
    | zero =>
      rw [read_load_below _ (by omega)]
      exact read_write_same hm (by omega) b
    | succ k =>
      have := ih (wf_write hm a b) (a := a + 1) (by omega) (k := k) (by omega)
      rw [show a + (k + 1) = a + 1 + k by omega, this]
      rfl

theorem wf_imageMemory (image : List Byte) : (imageMemory image).wf = true := wf_load wf_nil _ image

theorem wf_reset : State.reset.mem.wf = true := rfl

/-- What memory reads as after a reset with an image: the image at 0x200, elsewhere the unlisted content (R22, R43). -/
theorem read_imageMemory {image : List Byte} (hfit : image.length ≤ Config.progMax) (a : Nat) :
    (imageMemory image).read a =
      if h : Config.progBase ≤ a ∧ a < Config.progBase + image.length then image[a - Config.progBase]'(by omega)
      else unlisted a := by
  unfold imageMemory
  split
  · next h =>
    have := read_load (m := []) wf_nil (a := Config.progBase) (bs := image) (by unfold Config.progMax at hfit; unfold Config.progBase Config.memSize; omega)
      (k := a - Config.progBase) (by omega)
    rwa [show Config.progBase + (a - Config.progBase) = a by omega] at this
  · next h =>
    by_cases hlt : a < Config.progBase
    · rw [read_load_below _ hlt, read_nil]
    · rw [read_load_above _ image (by omega), read_nil]

end Sys2Proof.Machine
end

