-- ==== Sys2Proof/Laws/PerInstr.lean ====
section
/-! SUPPORT. One fact per constructor of Instr: the word the encoder gives an instruction is selected by the mask and pattern of
the instruction's own row of the opcode table (spec/30_encoding.md R66, R67). -/

namespace Sys2Proof.Laws.OwnRow

/-- The instruction's word is one of its own row's words. -/
def Statement (i : Instr) : Prop :=
  ∃ r ∈ opcodeRows, r.order = i.rowOrder ∧ r.selects (encode i) = true

/-- A row of the table whose mask and pattern fit a word selects it. -/
theorem own_row {i : Instr} (r : OpcodeRow) (hr : r ∈ opcodeRows) (ho : r.order = i.rowOrder)
    (h : encode i &&& r.mask = r.pattern) : Statement i :=
  ⟨r, hr, ho, by unfold OpcodeRow.selects; rw [h]; exact beq_self_eq_true _⟩

theorem cls : Statement .cls :=
  own_row ⟨1, 0xFFFF, 0x00E0⟩ (by decide) rfl (by decide)

theorem ret : Statement .ret :=
  own_row ⟨2, 0xFFFF, 0x00EE⟩ (by decide) rfl (by decide)

theorem jp (nnn : Addr) : Statement (.jp nnn) :=
  own_row ⟨3, 0xF000, 0x1000⟩ (by decide) rfl ((wordOfOpNnn_and_mask _ _).trans (by decide))

theorem call (nnn : Addr) : Statement (.call nnn) :=
  own_row ⟨4, 0xF000, 0x2000⟩ (by decide) rfl ((wordOfOpNnn_and_mask _ _).trans (by decide))

theorem ldVxKk (x : Nibble) (kk : Byte) : Statement (.ldVxKk x kk) :=
  own_row ⟨5, 0xF000, 0x6000⟩ (by decide) rfl ((wordOfOpXKk_and_mask _ _ _).trans (by decide))

theorem addVxKk (x : Nibble) (kk : Byte) : Statement (.addVxKk x kk) :=
  own_row ⟨6, 0xF000, 0x7000⟩ (by decide) rfl ((wordOfOpXKk_and_mask _ _ _).trans (by decide))

theorem ldVxVy (x y : Nibble) : Statement (.ldVxVy x y) :=
  own_row ⟨7, 0xF00F, 0x8000⟩ (by decide) rfl ((wordOfNibbles_and_maskR _ _ _ _).trans (by decide))

theorem orVxVy (x y : Nibble) : Statement (.orVxVy x y) :=
  own_row ⟨8, 0xF00F, 0x8001⟩ (by decide) rfl ((wordOfNibbles_and_maskR _ _ _ _).trans (by decide))

theorem andVxVy (x y : Nibble) : Statement (.andVxVy x y) :=
  own_row ⟨9, 0xF00F, 0x8002⟩ (by decide) rfl ((wordOfNibbles_and_maskR _ _ _ _).trans (by decide))

theorem xorVxVy (x y : Nibble) : Statement (.xorVxVy x y) :=
  own_row ⟨10, 0xF00F, 0x8003⟩ (by decide) rfl ((wordOfNibbles_and_maskR _ _ _ _).trans (by decide))

theorem addVxVy (x y : Nibble) : Statement (.addVxVy x y) :=
  own_row ⟨11, 0xF00F, 0x8004⟩ (by decide) rfl ((wordOfNibbles_and_maskR _ _ _ _).trans (by decide))

theorem subVxVy (x y : Nibble) : Statement (.subVxVy x y) :=
  own_row ⟨12, 0xF00F, 0x8005⟩ (by decide) rfl ((wordOfNibbles_and_maskR _ _ _ _).trans (by decide))

theorem shrVxVy (x y : Nibble) : Statement (.shrVxVy x y) :=
  own_row ⟨13, 0xF00F, 0x8006⟩ (by decide) rfl ((wordOfNibbles_and_maskR _ _ _ _).trans (by decide))

theorem shlVxVy (x y : Nibble) : Statement (.shlVxVy x y) :=
  own_row ⟨14, 0xF00F, 0x800E⟩ (by decide) rfl ((wordOfNibbles_and_maskR _ _ _ _).trans (by decide))

theorem ldI (nnn : Addr) : Statement (.ldI nnn) :=
  own_row ⟨15, 0xF000, 0xA000⟩ (by decide) rfl ((wordOfOpNnn_and_mask _ _).trans (by decide))

theorem jpV0 (nnn : Addr) : Statement (.jpV0 nnn) :=
  own_row ⟨16, 0xF000, 0xB000⟩ (by decide) rfl ((wordOfOpNnn_and_mask _ _).trans (by decide))

theorem rnd (x : Nibble) (kk : Byte) : Statement (.rnd x kk) :=
  own_row ⟨17, 0xF000, 0xC000⟩ (by decide) rfl ((wordOfOpXKk_and_mask _ _ _).trans (by decide))

theorem drw (x y n : Nibble) : Statement (.drw x y n) :=
  own_row ⟨18, 0xF000, 0xD000⟩ (by decide) rfl ((wordOfNibbles_and_mask _ _ _ _).trans (by decide))

theorem ldVxDt (x : Nibble) : Statement (.ldVxDt x) :=
  own_row ⟨19, 0xF0FF, 0xF007⟩ (by decide) rfl ((wordOfOpXKk_and_maskT _ _ _).trans (by decide))

theorem ldDtVx (x : Nibble) : Statement (.ldDtVx x) :=
  own_row ⟨20, 0xF0FF, 0xF015⟩ (by decide) rfl ((wordOfOpXKk_and_maskT _ _ _).trans (by decide))

theorem ldStVx (x : Nibble) : Statement (.ldStVx x) :=
  own_row ⟨21, 0xF0FF, 0xF018⟩ (by decide) rfl ((wordOfOpXKk_and_maskT _ _ _).trans (by decide))

theorem nop0 (w : BitVec 12) : Statement (.nop0 w) :=
  own_row ⟨22, 0xF000, 0x0000⟩ (by decide) rfl ((wordOfOpNnn_and_mask _ _).trans (by decide))

theorem nop3 (w : BitVec 12) : Statement (.nop3 w) :=
  own_row ⟨23, 0xF000, 0x3000⟩ (by decide) rfl ((wordOfOpNnn_and_mask _ _).trans (by decide))

theorem nop4 (w : BitVec 12) : Statement (.nop4 w) :=
  own_row ⟨24, 0xF000, 0x4000⟩ (by decide) rfl ((wordOfOpNnn_and_mask _ _).trans (by decide))

theorem nop5 (w : BitVec 12) : Statement (.nop5 w) :=
  own_row ⟨25, 0xF000, 0x5000⟩ (by decide) rfl ((wordOfOpNnn_and_mask _ _).trans (by decide))

theorem nop9 (w : BitVec 12) : Statement (.nop9 w) :=
  own_row ⟨26, 0xF000, 0x9000⟩ (by decide) rfl ((wordOfOpNnn_and_mask _ _).trans (by decide))

theorem nopE (w : BitVec 12) : Statement (.nopE w) :=
  own_row ⟨27, 0xF000, 0xE000⟩ (by decide) rfl ((wordOfOpNnn_and_mask _ _).trans (by decide))

theorem nop8x7 (w : BitVec 8) : Statement (.nop8x7 w) :=
  own_row ⟨28, 0xF00F, 0x8007⟩ (by decide) rfl ((wordOfAluNop_and_maskR _ _).trans (by decide))

theorem nop8x8 (w : BitVec 8) : Statement (.nop8x8 w) :=
  own_row ⟨29, 0xF00F, 0x8008⟩ (by decide) rfl ((wordOfAluNop_and_maskR _ _).trans (by decide))

theorem nop8x9 (w : BitVec 8) : Statement (.nop8x9 w) :=
  own_row ⟨30, 0xF00F, 0x8009⟩ (by decide) rfl ((wordOfAluNop_and_maskR _ _).trans (by decide))

theorem nop8xA (w : BitVec 8) : Statement (.nop8xA w) :=
  own_row ⟨31, 0xF00F, 0x800A⟩ (by decide) rfl ((wordOfAluNop_and_maskR _ _).trans (by decide))

theorem nop8xB (w : BitVec 8) : Statement (.nop8xB w) :=
  own_row ⟨32, 0xF00F, 0x800B⟩ (by decide) rfl ((wordOfAluNop_and_maskR _ _).trans (by decide))

theorem nop8xC (w : BitVec 8) : Statement (.nop8xC w) :=
  own_row ⟨33, 0xF00F, 0x800C⟩ (by decide) rfl ((wordOfAluNop_and_maskR _ _).trans (by decide))

theorem nop8xD (w : BitVec 8) : Statement (.nop8xD w) :=
  own_row ⟨34, 0xF00F, 0x800D⟩ (by decide) rfl ((wordOfAluNop_and_maskR _ _).trans (by decide))

theorem nop8xF (w : BitVec 8) : Statement (.nop8xF w) :=
  own_row ⟨35, 0xF00F, 0x800F⟩ (by decide) rfl ((wordOfAluNop_and_maskR _ _).trans (by decide))

theorem nopF (w : BitVec 12) : Statement (.nopF w) :=
  own_row ⟨36, 0xF000, 0xF000⟩ (by decide) rfl ((wordOfOpNnn_and_mask _ _).trans (by decide))

end Sys2Proof.Laws.OwnRow
end

