-- ==== Sys2Proof/Laws/Step.lean ====
section
/-! SUPPORT. What one step of the machine can do, said once (spec/10_state.md R24, R25). -/

namespace Sys2Proof.Machine

/-! ### The event that happens next (R24) -/

/-- Taking an event changes only the queue and the count of free events. -/
theorem taken_cases (s : State) : ∃ es n, s.taken = { s with events := es, served := n } := by
  unfold State.taken
  split
  · exact ⟨s.events, s.served + 1, rfl⟩
  · next rest _ => exact ⟨rest, s.served, rfl⟩

@[simp] theorem taken_v (s : State) : s.taken.v = s.v := by unfold State.taken; split <;> rfl
@[simp] theorem taken_pc (s : State) : s.taken.pc = s.pc := by unfold State.taken; split <;> rfl
@[simp] theorem taken_index (s : State) : s.taken.index = s.index := by unfold State.taken; split <;> rfl
@[simp] theorem taken_dt (s : State) : s.taken.dt = s.dt := by unfold State.taken; split <;> rfl
@[simp] theorem taken_st (s : State) : s.taken.st = s.st := by unfold State.taken; split <;> rfl
@[simp] theorem taken_fault (s : State) : s.taken.fault = s.fault := by unfold State.taken; split <;> rfl
@[simp] theorem taken_sp (s : State) : s.taken.sp = s.sp := by unfold State.taken; split <;> rfl
@[simp] theorem taken_stack (s : State) : s.taken.stack = s.stack := by unfold State.taken; split <;> rfl
@[simp] theorem taken_fb (s : State) : s.taken.fb = s.fb := by unfold State.taken; split <;> rfl
@[simp] theorem taken_mem (s : State) : s.taken.mem = s.mem := by unfold State.taken; split <;> rfl
@[simp] theorem taken_rnd (s : State) : s.taken.rnd = s.rnd := by unfold State.taken; split <;> rfl
@[simp] theorem taken_draws (s : State) : s.taken.draws = s.draws := by unfold State.taken; split <;> rfl
@[simp] theorem taken_outputs (s : State) : s.taken.outputs = s.outputs := by unfold State.taken; split <;> rfl
@[simp] theorem taken_getV (s : State) (r : Nibble) : s.taken.getV r = s.getV r := by unfold State.taken; split <;> rfl
@[simp] theorem taken_pixel (s : State) (x y : Nat) : s.taken.pixel x y = s.pixel x y := by unfold State.taken; split <;> rfl
@[simp] theorem taken_memRead (s : State) (a : Nat) : s.taken.memRead a = s.memRead a := by unfold State.taken; split <;> rfl
@[simp] theorem taken_fetchBytes (s : State) : s.taken.fetchBytes = s.fetchBytes := by unfold State.taken; split <;> rfl
@[simp] theorem taken_fetchWord (s : State) : s.taken.fetchWord = s.fetchWord := by unfold State.taken; split <;> rfl
theorem taken_events (s : State) : s.taken.events = s.events.tail := by
  unfold State.taken
  split <;> next h => simp [h]

/-- The first event of the history ahead is the next event. -/
theorem eventAt_zero (s : State) : s.eventAt 0 = s.upcoming := by
  unfold State.eventAt State.upcoming
  split <;> next h => simp [h]

/-- Taking an event leaves the rest of the history ahead. -/
theorem eventAt_taken (s : State) (k : Nat) : s.taken.eventAt k = s.eventAt (k + 1) := by
  unfold State.eventAt State.taken
  split
  · next h => simp [h]; congr 1; omega
  · next e rest h => simp [h]

/-- The history ahead is that of any state with the same queue and count. -/
theorem eventAt_congr {s t : State} (he : t.events = s.events) (hn : t.served = s.served) (k : Nat) :
    t.eventAt k = s.eventAt k := by
  unfold State.eventAt
  rw [he, hn]

/-! ### The step of the CPU (R25) -/

/-- A step that is requested is the step of the CPU on the state without the request. -/
theorem step_of_requested {s s0 : State} {rnd : Option Byte} (h : StepRequested s rnd s0) : step s = cpuStep rnd s0 := by
  obtain ⟨he, rfl⟩ := h
  unfold step nextEvent
  rw [he]
  rfl

/-- The state a requested step acts on differs from the state before it only in the queue and the count of free events. -/
theorem requested_state {s s0 : State} {rnd : Option Byte} (h : StepRequested s rnd s0) :
    ∃ es n, s0 = { s with events := es, served := n } := by
  obtain ⟨_, rfl⟩ := h
  exact taken_cases s

theorem cpuStep_halted (s : State) (rnd : Option Byte) (h : s.fault ≠ 0#3) : cpuStep rnd s = .next s := by
  unfold cpuStep State.halted
  simp [h]

theorem cpuStep_fetchFault (s : State) (rnd : Option Byte) (h : s.fault = 0#3) (hpc : 0x0FFE < s.pc.toNat) :
    cpuStep rnd s = .next (raise .fetchOutOfBounds s) := by
  unfold cpuStep State.halted
  have : lastFetch < s.pc := by rw [BitVec.lt_def]; simpa using hpc
  simp [h, this]

theorem cpuStep_exec (s : State) (rnd : Option Byte) (h : s.fault = 0#3) (hpc : s.pc.toNat ≤ 0x0FFE) :
    cpuStep rnd s = exec (decodeWord s.fetchWord) (s.fetched rnd) := by
  unfold cpuStep State.halted
  have : ¬ lastFetch < s.pc := by rw [BitVec.lt_def]; simpa using hpc
  simp [h, this]

/-- All a step of the CPU can do: nothing on a halted core, the fetch fault, or the execute phase of the word at `PC`. -/
theorem cpuStep_cases (s : State) (rnd : Option Byte) :
    (s.fault ≠ 0#3 ∧ cpuStep rnd s = .next s) ∨
    (s.fault = 0#3 ∧ 0x0FFE < s.pc.toNat ∧ cpuStep rnd s = .next (raise .fetchOutOfBounds s)) ∨
    (s.fault = 0#3 ∧ s.pc.toNat ≤ 0x0FFE ∧ cpuStep rnd s = exec (decodeWord s.fetchWord) (s.fetched rnd)) := by
  by_cases h : s.fault = 0#3
  · by_cases hpc : s.pc.toNat ≤ 0x0FFE
    · exact .inr (.inr ⟨h, hpc, cpuStep_exec s rnd h hpc⟩)
    · exact .inr (.inl ⟨h, by omega, cpuStep_fetchFault s rnd h (by omega)⟩)
  · exact .inl ⟨h, cpuStep_halted s rnd h⟩

/-- What the fetched word decodes to, from the two bytes at `PC` and `PC + 1` (R45). -/
theorem decode_fetchBytes (s : State) : decode s.fetchBytes = .ok (decodeWord s.fetchWord) := rfl

/-- The step in which a known event happens. -/
theorem step_of_event {s : State} {e : Event} (h : s.upcoming = e) : step s = deliver e s.taken := by
  rw [← h]
  rfl

/-- An event of the queue is the next event. -/
theorem upcoming_of_queue {s : State} {e : Event} {rest : List Event} (h : s.events = e :: rest) : s.upcoming = e := by
  unfold State.upcoming
  rw [h]

/-- Taking an event of the queue leaves the rest of the queue. -/
theorem taken_of_queue {s : State} {e : Event} {rest : List Event} (h : s.events = e :: rest) :
    s.taken = { s with events := rest } := by
  unfold State.taken
  rw [h]

theorem resetEvent_ok (s : State) {image : List Byte} (h : image.length ≤ Config.progMax) :
    resetEvent image s = .next (s.resetWith image) := by
  unfold resetEvent
  rw [if_pos h]

/-- All a step can do: a requested step of the CPU, a tick, a read by the host, or a reset. -/
theorem step_cases (s : State) :
    (∃ rnd, s.upcoming = .step rnd ∧ step s = cpuStep rnd s.taken) ∨
    (s.upcoming = .delayTick ∧ step s = .next s.taken.delayTick) ∨
    (s.upcoming = .soundTick ∧ step s = .next s.taken.soundTick) ∨
    (∃ x y, s.upcoming = .query x y ∧ step s = .next (s.taken.query x y)) ∨
    (s.upcoming = .readFault ∧ step s = .next s.taken.readFault) ∨
    (∃ image, s.upcoming = .reset image ∧ step s = resetEvent image s.taken) := by
  cases he : s.upcoming with
  | step rnd => exact .inl ⟨rnd, rfl, step_of_event he⟩
  | delayTick => exact .inr (.inl ⟨rfl, step_of_event he⟩)
  | soundTick => exact .inr (.inr (.inl ⟨rfl, step_of_event he⟩))
  | query x y => exact .inr (.inr (.inr (.inl ⟨x, y, rfl, step_of_event he⟩)))
  | readFault => exact .inr (.inr (.inr (.inr (.inl ⟨rfl, step_of_event he⟩))))
  | reset image => exact .inr (.inr (.inr (.inr (.inr ⟨image, rfl, step_of_event he⟩))))

/-- A run goes on from the state its first step gives. -/
theorem steps_succ {k : Nat} {s t : State} (h : step s = .next t) : steps (k + 1) s = steps k t := by
  rw [steps, h]

/-! ### Ticks (R160, R161) -/

/-- All a delay tick can do (R160). -/
theorem delayTick_eq (s : State) : s.delayTick = s.setDt (BitVec.ofNat 8 (s.dt.toNat - 1)) := by
  unfold State.delayTick
  split
  · next h =>
    have : 0 < s.dt.toNat := by simpa [BitVec.lt_def] using h
    congr 1
    apply BitVec.eq_of_toNat_eq
    rw [BitVec.toNat_sub_of_le (by rw [BitVec.le_def]; exact this)]
    have := s.dt.isLt
    simp
    omega
  · next h =>
    have h0 : s.dt = 0#8 := by
      apply BitVec.eq_of_toNat_eq
      simpa [BitVec.lt_def] using h
    unfold State.setDt
    cases s
    simp_all

/-- All a sound tick can do: a tone and one less, or nothing at zero (R161). -/
theorem soundTick_cases (s : State) :
    (0 < s.st.toNat ∧ s.soundTick = (s.emit .tone).setSt (BitVec.ofNat 8 (s.st.toNat - 1))) ∨
      (s.st.toNat = 0 ∧ s.soundTick = s) := by
  unfold State.soundTick
  split
  · next h =>
    have h1 : 0 < s.st.toNat := by simpa [BitVec.lt_def] using h
    refine .inl ⟨h1, ?_⟩
    congr 1
    apply BitVec.eq_of_toNat_eq
    rw [BitVec.toNat_sub_of_le (by rw [BitVec.le_def]; exact h1)]
    have := s.st.isLt
    simp
    omega
  · next h => exact .inr ⟨by simpa [BitVec.lt_def] using h, rfl⟩

/-! ### The history ahead (R24) -/

/-- A step leaves the queue and the count of free events as taking its event left them. -/
theorem step_history {s t : State} (h : step s = .next t) : t.events = s.taken.events ∧ t.served = s.taken.served := by
  rcases step_cases s with ⟨rnd, _, e⟩ | ⟨_, e⟩ | ⟨_, e⟩ | ⟨x, y, _, e⟩ | ⟨_, e⟩ | ⟨image, _, e⟩ <;> rw [e] at h
  · rcases cpuStep_cases s.taken rnd with ⟨_, e⟩ | ⟨_, _, e⟩ | ⟨_, _, e⟩ <;> rw [e] at h
    · cases h; exact ⟨rfl, rfl⟩
    · cases h; exact ⟨rfl, rfl⟩
    · simpa using exec_history _ h
  · cases h; rw [delayTick_eq]; exact ⟨rfl, rfl⟩
  · cases h
    rcases soundTick_cases s.taken with ⟨_, e⟩ | ⟨_, e⟩ <;> rw [e] <;> exact ⟨rfl, rfl⟩
  · cases h; exact ⟨rfl, rfl⟩
  · cases h; exact ⟨rfl, rfl⟩
  · unfold resetEvent at h
    split at h <;> cases h
    exact ⟨rfl, rfl⟩

/-- After a step the history ahead is the rest of the history ahead before it. -/
theorem step_eventAt {s t : State} (h : step s = .next t) (k : Nat) : t.eventAt k = s.eventAt (k + 1) := by
  rw [← eventAt_taken]
  exact eventAt_congr (step_history h).1 (step_history h).2 k

end Sys2Proof.Machine
end

