-- ==== Sys2Proof/Tests/Slice0.lean ====
section
/-! SUPPORT. Tests: expected values are the worked examples and derived vectors of spec/95_test_vectors.md (ids S, C, I, A, D, T,
F there), words are written out from spec/30_encoding.md R64 to R67; then a witness for the hypotheses of each statement. -/

namespace Sys2Proof.Tests

open Sys2Proof.Machine

/-- What the next state of an outcome shows, if there is one. -/
def after {α : Type} (o : Result) (f : State → α) : Option α :=
  match o with
  | .next t => some (f t)
  | .fault _ => none
  | .refused _ => none

/-- The reset state with some registers set. -/
def withRegs (l : List (Nibble × Byte)) : State := l.foldl (fun s p => s.setV p.1 p.2) State.reset

/-- The reset state with some bytes of memory written. -/
def withBytes (l : List (Nat × Byte)) (s : State) : State := { s with mem := l.foldl (fun m c => m.write c.1 c.2) s.mem }

/-- A register and `VF` after a word is executed. -/
def regAndFlag (w : Word) (s : State) (r : Nibble) : Option (Byte × Byte) :=
  after (exec (decodeWord w) s) fun t => (t.getV r, t.getV flagReg)

/-- The columns that are on in a row. -/
def onIn (s : State) (y : Nat) : List Nat := (List.range 64).filter fun x => s.pixel x y

/-! ### Well-formedness: an ill-formed term for each check -/

theorem test_wf_refuses_nop0_cls : (Instr.nop0 0x0E0#12).wf = false := by decide
theorem test_wf_refuses_nop0_ret : (Instr.nop0 0x0EE#12).wf = false := by decide
theorem test_wf_refuses_nopF_ldVxDt : (Instr.nopF 0x307#12).wf = false := by decide
theorem test_wf_refuses_nopF_ldDtVx : (Instr.nopF 0x215#12).wf = false := by decide
theorem test_wf_refuses_nopF_ldStVx : (Instr.nopF 0xF18#12).wf = false := by decide

/-! ### Decoding: a word for every constructor, bit by bit from the encodings of R64, R66 and R67 -/

theorem test_decode_display : decodeWord 0b0000_0000_1110_0000#16 = .cls ∧
    decodeWord 0b1101_0110_0010_1111#16 = .drw 6#4 2#4 15#4 := by decide
theorem test_decode_control : decodeWord 0b0000_0000_1110_1110#16 = .ret ∧
    decodeWord 0b0001_1011_1100_1101#16 = .jp 0xBCD#12 ∧ decodeWord 0b0010_0001_0010_0011#16 = .call 0x123#12 ∧
    decodeWord 0b1011_0010_0000_1100#16 = .jpV0 0x20C#12 := by decide
theorem test_decode_immediate : decodeWord 0b0110_1010_0010_0010#16 = .ldVxKk 10#4 0x22#8 ∧
    decodeWord 0b0111_0001_0001_0001#16 = .addVxKk 1#4 0x11#8 ∧ decodeWord 0b1010_0000_0101_0000#16 = .ldI 0x050#12 ∧
    decodeWord 0b1100_0011_0000_1111#16 = .rnd 3#4 0x0F#8 := by decide
theorem test_decode_alu : decodeWord 0b1000_0001_0010_0000#16 = .ldVxVy 1#4 2#4 ∧
    decodeWord 0b1000_0001_0010_0001#16 = .orVxVy 1#4 2#4 ∧ decodeWord 0b1000_0001_0010_0010#16 = .andVxVy 1#4 2#4 ∧
    decodeWord 0b1000_0001_0010_0011#16 = .xorVxVy 1#4 2#4 ∧ decodeWord 0b1000_1010_1011_0100#16 = .addVxVy 10#4 11#4 ∧
    decodeWord 0b1000_0001_0010_0101#16 = .subVxVy 1#4 2#4 ∧ decodeWord 0b1000_0000_0001_0110#16 = .shrVxVy 0#4 1#4 ∧
    decodeWord 0b1000_0000_0001_1110#16 = .shlVxVy 0#4 1#4 := by decide
theorem test_decode_timers : decodeWord 0b1111_0011_0000_0111#16 = .ldVxDt 3#4 ∧
    decodeWord 0b1111_0010_0001_0101#16 = .ldDtVx 2#4 ∧ decodeWord 0b1111_0101_0001_1000#16 = .ldStVx 5#4 := by decide
theorem test_decode_nop_by_op : decodeWord 0b0000_0000_1110_0001#16 = .nop0 0x0E1#12 ∧
    decodeWord 0b0011_0000_0000_0101#16 = .nop3 0x005#12 ∧ decodeWord 0b0100_0001_0010_0011#16 = .nop4 0x123#12 ∧
    decodeWord 0b0101_0001_0010_0000#16 = .nop5 0x120#12 ∧ decodeWord 0b1001_0001_0010_0000#16 = .nop9 0x120#12 ∧
    decodeWord 0b1110_0001_1001_1110#16 = .nopE 0x19E#12 ∧ decodeWord 0b1111_0011_0001_1110#16 = .nopF 0x31E#12 := by decide
theorem test_decode_nop_by_fn : decodeWord 0b1000_0001_0010_0111#16 = .nop8x7 0x12#8 ∧
    decodeWord 0b1000_0001_0010_1000#16 = .nop8x8 0x12#8 ∧ decodeWord 0b1000_0001_0010_1001#16 = .nop8x9 0x12#8 ∧
    decodeWord 0b1000_0001_0010_1010#16 = .nop8xA 0x12#8 ∧ decodeWord 0b1000_0001_0010_1011#16 = .nop8xB 0x12#8 ∧
    decodeWord 0b1000_0001_0010_1100#16 = .nop8xC 0x12#8 ∧ decodeWord 0b1000_0001_0010_1101#16 = .nop8xD 0x12#8 ∧
    decodeWord 0b1000_0001_0010_1111#16 = .nop8xF 0x12#8 := by decide
theorem test_decode_bytes : decode [0xD0#8, 0x15#8] = .ok (.drw 0#4 1#4 5#4) ∧ decode [0xD0#8] = .error .truncated := by decide
theorem test_decodeTableWord : decodeTableWord 16 0x2123 = some (.call 0x123#12) ∧ decodeTableWord 17 0x2123 = none := by decide

/-! ### Control flow -/

-- S3
theorem test_jp : after (exec (decodeWord 0x1BCD#16) State.reset) (·.pc) = some 0x0BCD#16 := by decide
-- S8
theorem test_call : after (exec (decodeWord 0x2123#16) { State.reset with pc := 0x111#16 })
    (fun t => (t.pc, t.sp.val, t.stack[0])) = some (0x0123#16, 1, 0x0111#16) := by decide
-- C7
theorem test_call_full : after (exec (decodeWord 0x2300#16) { State.reset with sp := 16 })
    (fun t => (t.fault, t.sp.val)) = some (4#3, 16) := by decide
-- S8
theorem test_ret : after (exec (decodeWord 0x00EE#16)
    { State.reset with pc := 0x123#16, sp := 1, stack := State.reset.stack.set 0 0x0111#16 })
    (fun t => (t.pc, t.sp.val)) = some (0x0111#16, 0) := by decide
-- C9: a step, so the fetch is undone
theorem test_ret_empty : after (step (State.reset.withFetchWord 16 0x00EE)) (fun t => (t.fault, t.pc, t.sp.val)) =
    some (3#3, 0x0200#16, 0) := by decide
-- C2
theorem test_jpV0_no_mask : after (exec (decodeWord 0xBFFF#16) (withRegs [(0, 0xFF)])) (·.pc) = some 0x10FE#16 := by decide
-- C3
theorem test_jpV0_uses_V0 : after (exec (decodeWord 0xB300#16) (withRegs [(3, 0x55)])) (·.pc) = some 0x0300#16 := by decide

/-! ### Immediate, index, random -/

-- S4, I4
theorem test_ldVxKk : regAndFlag 0x6A22#16 State.reset 10 = some (0x22#8, 0#8) ∧
    regAndFlag 0x6FAB#16 State.reset 15 = some (0xAB#8, 0xAB#8) := by decide
-- I2, I5
theorem test_addVxKk : regAndFlag 0x7109#16 (withRegs [(1, 0xFA), (15, 0x55)]) 1 = some (0x03#8, 0x55#8) ∧
    regAndFlag 0x7F02#16 (withRegs [(15, 0xFF)]) 15 = some (0x01#8, 0x01#8) := by decide
-- I6
theorem test_ldI : after (exec (decodeWord 0xAFFF#16) State.reset) (·.index) = some 0x0FFF#16 := by decide
-- I8, I11
theorem test_rnd : regAndFlag 0xC30F#16 { State.reset with rnd := some 0xA7#8 } 3 = some (0x07#8, 0#8) ∧
    regAndFlag 0xCF81#16 { State.reset with rnd := some 0xFF#8 } 15 = some (0x81#8, 0x81#8) := by decide

/-! ### ALU -/

-- A1
theorem test_ldVxVy : regAndFlag 0x8120#16 (withRegs [(2, 0x3C)]) 1 = some (0x3C#8, 0#8) := by decide
-- A2, A3, A4
theorem test_orVxVy : regAndFlag 0x8121#16 (withRegs [(1, 0x0F), (2, 0xF0), (15, 9)]) 1 = some (0xFF#8, 9#8) := by decide
theorem test_andVxVy : regAndFlag 0x8122#16 (withRegs [(1, 0x3C), (2, 0x0F), (15, 9)]) 1 = some (0x0C#8, 9#8) := by decide
theorem test_xorVxVy : regAndFlag 0x8123#16 (withRegs [(1, 0xFF), (2, 0x0F), (15, 9)]) 1 = some (0xF0#8, 9#8) := by decide
-- S6, A8
theorem test_addVxVy : regAndFlag 0x8124#16 (withRegs [(1, 0xFA), (2, 0x09)]) 1 = some (0x03#8, 1#8) ∧
    regAndFlag 0x8124#16 (withRegs [(1, 0x80), (2, 0x7F), (15, 1)]) 1 = some (0xFF#8, 0#8) := by decide
-- A24, A25
theorem test_addVxVy_flag_register : regAndFlag 0x8F14#16 (withRegs [(15, 0xF0), (1, 0x20)]) 15 = some (0x10#8, 0x10#8) ∧
    regAndFlag 0x81F4#16 (withRegs [(1, 0xFF), (15, 0x01)]) 1 = some (0x00#8, 1#8) := by decide
-- S7, A11
theorem test_subVxVy : regAndFlag 0x8125#16 (withRegs [(1, 5), (2, 9)]) 1 = some (0xFC#8, 0#8) ∧
    regAndFlag 0x8125#16 (withRegs [(1, 7), (2, 7)]) 1 = some (0x00#8, 1#8) := by decide
-- A26
theorem test_subVxVy_flag_register : regAndFlag 0x8F15#16 (withRegs [(15, 5), (1, 9)]) 15 = some (0xFC#8, 0xFC#8) := by decide
-- S9 (old V0 ignored, V1 kept), A16
theorem test_shrVxVy : regAndFlag 0x8016#16 (withRegs [(0, 0xAA), (1, 0x11)]) 0 = some (0x08#8, 1#8) ∧
    regAndFlag 0x8126#16 (withRegs [(2, 0xFF)]) 1 = some (0x7F#8, 1#8) := by decide
-- A27, A29
theorem test_shrVxVy_flag_register : regAndFlag 0x8F16#16 (withRegs [(1, 5)]) 15 = some (1#8, 1#8) ∧
    regAndFlag 0x81F6#16 (withRegs [(15, 4)]) 1 = some (2#8, 0#8) := by decide
-- S9, A19
theorem test_shlVxVy : regAndFlag 0x801E#16 (withRegs [(1, 0x82)]) 0 = some (0x04#8, 1#8) ∧
    regAndFlag 0x812E#16 (withRegs [(2, 0x7F)]) 1 = some (0xFE#8, 0#8) := by decide
-- A28
theorem test_shlVxVy_flag_register : regAndFlag 0x8FFE#16 (withRegs [(15, 0x81)]) 15 = some (1#8, 1#8) := by decide

/-! ### Display -/

-- D11
theorem test_cls : after (exec .cls (State.reset.setFb (Framebuffer.set State.reset.fb 63 31 true)))
    (fun t => t.pixel 63 31) = some false := by decide
-- D1: clipped at the right and at the bottom
theorem test_drw_clips : after (exec (decodeWord 0xD015#16) { withRegs [(0, 60), (1, 30)] with index := 0x0050#16 })
    (fun t => (onIn t 30, onIn t 31, onIn t 0, t.getV 15)) = some ([60, 61, 62, 63], [60, 63], [], 0#8) := by decide
-- D6: the column is taken from the old VF
theorem test_drw_flag_register : after (exec (decodeWord 0xDF11#16)
    (withBytes [(0x300, 0x80)] { withRegs [(15, 5), (1, 2)] with index := 0x0300#16 }))
    (fun t => (onIn t 2, t.getV 15)) = some ([5], 0#8) := by decide
-- the second drawing of D5, on the display its first leaves
theorem test_drw_collides : after (exec (decodeWord 0xD011#16)
    (withBytes [(0x301, 0x60)] { State.reset with
      index := 0x0301#16, fb := Framebuffer.set (Framebuffer.set State.reset.fb 0 0 true) 1 0 true }))
    (fun t => (onIn t 0, t.getV 15)) = some ([0, 2], 1#8) := by decide
-- D10: three rows would be read, the third at 0x1000
theorem test_drw_outside : after (exec (decodeWord 0xD015#16) { withRegs [(1, 29), (15, 9)] with index := 0x0FFE#16 })
    (fun t => (t.fault, t.getV 15, onIn t 29)) = some (2#3, 9#8, []) := by decide
-- D9: the clipped rows are not read
theorem test_drw_clipped_rows_not_read : after (exec (decodeWord 0xD015#16)
    (withBytes [(0xFFE, 0x80), (0xFFF, 0x80)] { withRegs [(1, 30)] with index := 0x0FFE#16 }))
    (fun t => (t.fault, onIn t 30, onIn t 31)) = some (0#3, [0], [0]) := by decide

/-! ### Timers and ticks -/

-- T1, T2, T3
theorem test_ldVxDt : after (exec (decodeWord 0xF307#16) { State.reset with dt := 0x2A#8 })
    (fun t => (t.getV 3, t.dt)) = some (0x2A#8, 0x2A#8) := by decide
theorem test_ldDtVx : after (exec (decodeWord 0xF215#16) (withRegs [(2, 0x3C)])) (·.dt) = some 0x3C#8 := by decide
theorem test_ldStVx : after (exec (decodeWord 0xF518#16) (withRegs [(5, 2)])) (fun t => (t.st, t.outputs)) =
    some (2#8, []) := by decide
-- T4, T6
theorem test_delayTick : State.delayTick { State.reset with dt := 2#8 } = { State.reset with dt := 1#8 } ∧
    State.delayTick State.reset = State.reset := by decide
-- T8: ticks act on a halted core, and from 1 to 0 there is a tone
theorem test_soundTick : after (step { State.reset with fault := 3#3, st := 1#8, events := [.soundTick] })
    (fun t => (t.st, t.outputs)) = some (0#8, [.tone]) := by decide

/-! ### Unrecognised words, the fetch, the host -/

-- F7, A22: nothing changes
theorem test_nop_0000 : after (exec (decodeWord 0x0000#16) State.reset) id = some State.reset := by decide
theorem test_nop_8127 : after (exec (decodeWord 0x8127#16) (withRegs [(1, 5), (2, 9)])) (fun t => (t.getV 1, t.getV 15)) =
    some (5#8, 0#8) := by decide
-- F5
theorem test_step_no_skip : after (step ((withRegs [(0, 5)]).withFetchWord 16 0x3005)) (·.pc) = some 0x0202#16 := by decide
-- F1 and F4: the last address of a fetch
theorem test_fetch_last : after (step ({ State.reset with pc := 0x0FFE#16 }.withFetchWord 16 0x6107))
    (fun t => (t.getV 1, t.pc, t.fault)) = some (0x07#8, 0x1000#16, 0#3) := by decide
theorem test_fetch_outside : after (step { State.reset with pc := 0x0FFF#16, events := [.step none] }) (fun t => (t.pc, t.fault)) =
    some (0x0FFF#16, 1#3) := by decide
-- S2, and the image at 0x200 (R43), on a halted core
theorem test_reset_event : after (step { State.reset with fault := 4#3, pc := 0x0300#16, events := [.reset [0x22, 0x00, 0x61]] })
    (fun t => (t.fault, t.pc, (List.range 5).map fun k => t.memRead (0x50 + k), (List.range 4).map fun k => t.memRead (0x200 + k))) =
    some (0#3, 0x0200#16, [0xF0#8, 0x90#8, 0x90#8, 0x90#8, 0xF0#8], [0x22#8, 0x00#8, 0x61#8, 0x00#8]) := by decide
theorem test_memory_canonical : imageMemory [0x22, 0x00, 0x61] = [(0x200, 0x22#8), (0x202, 0x61#8)] ∧
    Memory.write [(0x200, 0x22#8), (0x202, 0x61#8)] 0x200 0x00#8 = [(0x202, 0x61#8)] := by decide
-- R28: a query of the pixel (60, 30) as after the first draw of program P3
theorem test_query : after (step { State.reset with fb := Framebuffer.set State.reset.fb 60 30 true, events := [.query 60 30] })
    (·.outputs) = some [.pixel 60 30 true] := by decide

/-! ### Witnesses: a state and operands that meet the hypotheses of each statement -/

/-- The reset state with the word `w` where the next step fetches. -/
def fetching (w : Nat) : State := State.reset.withFetchWord 16 w

theorem witness_DecodeEncodeRoundTrip : (Instr.drw 15#4 15#4 15#4).wf = true ∧ (Instr.nop0 0xFFF#12).wf = true ∧
    (Instr.nopF 0xFFF#12).wf = true ∧ (Instr.nop0 0x1E0#12).wf = true := by decide
theorem witness_InstructionFormsExclusive : ∃ r ∈ formRows, r.selects 0x8AB4#16 = true ∧ r.order = 11 := by decide
theorem witness_StepRunsDecodedInstruction :
    ((fetching 0x6111).fault = 0#3 ∧ (fetching 0x6111).pc.toNat ≤ 0x0FFE ∧
      decode [(fetching 0x6111).memRead 0x200, (fetching 0x6111).memRead 0x201] = .ok (.ldVxKk 1#4 0x11#8) ∧
      (fetching 0x6111).upcoming = .step none) ∧
    ({ fetching 0x6111 with events := [.step (some 7#8)] } : State).upcoming = .step (some 7#8) := by decide
theorem witness_requested : StepRequested (fetching 0x6111) none { fetching 0x6111 with events := [] } ∧
    StepRequested { fetching 0x6111 with events := [.step (some 7#8), .delayTick] } (some 7#8)
      { fetching 0x6111 with events := [.delayTick] } := ⟨⟨rfl, rfl⟩, rfl, rfl⟩
/-- The empty queue, and a queue of two. -/
theorem witness_EventsHappenInOrder : State.reset.events = [] ∧
    ({ State.reset with events := [.soundTick, .step none] } : State).events = .soundTick :: [.step none] := by decide
/-- Every event the queue settles may happen, a reset with an image of the greatest length among them. -/
theorem witness_HistoryAheadHappens (j : Nat) (image : List Byte) (hj : j < 2)
    (h : ({ State.reset with events := [.reset (List.replicate 3584 0#8), .delayTick] } : State).eventAt j = .reset image) :
    image.length ≤ 3584 := by
  rcases j with - | - | j
  · cases h
    exact le_of_eq List.length_replicate
  · cases h
  · omega
/-- Each of the four faults is raised, at the first value that raises it, and none at the value before. -/
theorem witness_FaultsExactlyOnTheirConditions :
    after (step { State.reset with pc := 0x0FFF#16, events := [.step none] }) (·.fault) = some 1#3 ∧
    after (step { State.reset with pc := 0x0FFE#16, events := [.step none] }) (·.fault) = some 0#3 ∧
    after (step { fetching 0xD001 with index := 0x1000#16 }) (·.fault) = some 2#3 ∧
    after (step { fetching 0xD001 with index := 0x0FFF#16 }) (·.fault) = some 0#3 ∧
    after (step (fetching 0x00EE)) (·.fault) = some 3#3 ∧
    after (step { fetching 0x00EE with sp := 1 }) (·.fault) = some 0#3 ∧
    after (step { fetching 0x2200 with sp := 16 }) (·.fault) = some 4#3 ∧
    after (step { fetching 0x2200 with sp := 15 }) (·.fault) = some 0#3 := by decide
theorem witness_FaultEntryIsPreciseAndHalts_halted :
    StepRequested { State.reset with fault := 4#3, events := [.step none] } none { State.reset with fault := 4#3 } ∧
    ({ State.reset with fault := 4#3 } : State).fault ≠ 0#3 := ⟨⟨rfl, rfl⟩, by decide⟩
theorem witness_other_event : (¬ ∃ rnd s0, StepRequested { State.reset with events := [.delayTick] } rnd s0) ∧
    ¬ ResetWaiting { State.reset with events := [.delayTick] } ∧
    after (step { State.reset with events := [.delayTick] }) (·.fault) = some 0#3 := by
  refine ⟨?_, ?_, by decide⟩
  · rintro ⟨_, _, h, _⟩
    cases h
  · rintro ⟨_, h⟩
    cases h
theorem witness_EveryEventHasNextState (image : List Byte)
    (h : ({ State.reset with events := [.reset (List.replicate 3584 0#8)] } : State).upcoming = .reset image) :
    image.length ≤ 3584 := by
  cases h
  exact le_of_eq List.length_replicate
theorem witness_SelfJumpIsFinal : (fetching 0x1200).completed := by unfold State.completed; decide
theorem witness_PlacedWordRunsNext : (16 : Nat) ≤ 16 ∧ ({ State.reset with pc := 0x0FFE#16 } : State).mem.wf = true ∧
    ({ State.reset with pc := 0x0FFE#16 } : State).pc.toNat ≤ 0x0FFE := by decide
/-- A state at the bounds of the invariant, and a step from it. -/
theorem witness_EveryEventKeepsInvariant :
    State.Inv { State.reset with
      pc := 0x10FE#16, index := 0x0FFF#16, sp := 16, stack := Vector.replicate 16 0x1000#16,
      mem := [(0x0FFF, 1#8)] } ∧
    after (step { State.reset with
      pc := 0x10FE#16, index := 0x0FFF#16, sp := 16, stack := Vector.replicate 16 0x1000#16,
      mem := [(0x0FFF, 1#8)], events := [.step none] }) (·.fault) = some 1#3 :=
  ⟨⟨by decide, by decide, by decide, fun k _ h => by simp, by decide⟩, by decide⟩
theorem witness_MemoryConstantBetweenResets : ¬ ResetWaiting (fetching 0x6111) ∧
    after (step (fetching 0x6111)) (·.pc) = some 0x0202#16 :=
  ⟨fun ⟨_, h⟩ => Event.noConfusion h, by decide⟩
theorem witness_CanonicalMemoriesEqual : Memory.wf [(0x000, 1#8), (0xFFF, 1#8)] = true := by decide
theorem witness_TimersNeverRise (s0 : State) (rnd : Option Byte)
    (h : StepRequested { State.reset with dt := 255#8, st := 255#8, events := [.delayTick] } rnd s0) : False := by
  obtain ⟨h, _⟩ := h
  cases h
theorem witness_EachInstructionsWrites : State.reset.fault = 0#3 ∧
    after (exec (.addVxVy 1#4 2#4) State.reset) (·.fault) = some 0#3 ∧ after (exec .ret State.reset) (·.fault) = some 3#3 := by
  decide
theorem witness_EachInstructionsReads : (3#4 : Nibble) ∉ regsRead (.addVxVy 1#4 2#4) ∧
    flagReg ∉ regsRead (.shrVxVy flagReg 2#4) ∧ after (exec (.addVxVy 1#4 2#4) State.reset) (·.fault) = some 0#3 := by decide
theorem witness_SoundTimerUnobservable : after (exec (.ldStVx 1#4) State.reset) (·.st) = some 0#8 ∧
    after (exec (.ldVxDt 1#4) State.reset) (·.st) = some 0#8 ∧ ∃ x, Instr.ldStVx 1#4 = .ldStVx x :=
  ⟨by decide, by decide, _, rfl⟩
theorem witness_FlagsAreZeroOrOne : after (exec (.addVxVy 14#4 15#4) State.reset) (·.fault) = some 0#3 ∧
    (14#4 : Nibble) ≠ flagReg ∧ after (exec (.shlVxVy 15#4 15#4) State.reset) (·.fault) = some 0#3 ∧
    after (exec (.drw 15#4 15#4 0#4) State.reset) (·.fault) = some 0#3 := by decide
theorem witness_RetPopsReturnAddress : (0 < ({ State.reset with sp := 1 } : State).sp.val ∧
    0 < ({ State.reset with sp := 16 } : State).sp.val) ∧ State.reset.sp.val = 0 ∧
    ({ State.reset with sp := 15 } : State).sp.val < 16 ∧
    after (exec (.call 0xFFF#12) { State.reset with sp := 15 }) (·.sp.val) = some 16 := by decide
theorem witness_CallPushesPc : State.reset.sp.val < 16 ∧ ({ State.reset with sp := 15 } : State).sp.val < 16 ∧
    ({ State.reset with sp := 16 } : State).sp.val = 16 := by decide
/-- The encoding clauses: words with the fields they ask for. -/
theorem witness_encoding_clauses :
    (0x1FFF#16).extractLsb' 12 4 = 0x1#4 ∧ (0x2FFF#16).extractLsb' 12 4 = 0x2#4 ∧ (0xBFFF#16).extractLsb' 12 4 = 0xB#4 ∧
    (0x6FFF#16).extractLsb' 12 4 = 0x6#4 ∧ (0x7FFF#16).extractLsb' 12 4 = 0x7#4 ∧ (0xAFFF#16).extractLsb' 12 4 = 0xA#4 ∧
    (0xCFFF#16).extractLsb' 12 4 = 0xC#4 ∧ (0xDFFF#16).extractLsb' 12 4 = 0xD#4 ∧
    ((0x8FF0#16).extractLsb' 12 4 = 0x8#4 ∧ (0x8FF0#16).extractLsb' 0 4 = 0x0#4) ∧ (0x8FF1#16).extractLsb' 0 4 = 0x1#4 ∧
    (0x8FF2#16).extractLsb' 0 4 = 0x2#4 ∧ (0x8FF3#16).extractLsb' 0 4 = 0x3#4 ∧ (0x8FF4#16).extractLsb' 0 4 = 0x4#4 ∧
    (0x8FF5#16).extractLsb' 0 4 = 0x5#4 ∧ (0x8FF6#16).extractLsb' 0 4 = 0x6#4 ∧ (0x8FFE#16).extractLsb' 0 4 = 0xE#4 ∧
    ((0xFF07#16).extractLsb' 12 4 = 0xF#4 ∧ (0xFF07#16).extractLsb' 0 8 = 0x07#8) ∧ (0xFF15#16).extractLsb' 0 8 = 0x15#8 ∧
    (0xFF18#16).extractLsb' 0 8 = 0x18#8 := by decide
theorem witness_RndMasksDraw : ({ State.reset with rnd := some 0xA7#8 } : State).rnd = some 0xA7#8 ∧ State.reset.rnd = none := by
  decide
theorem witness_FlagRegisterAsOperand : after (exec (.addVxVy flagReg flagReg) State.reset) (·.fault) = some 0#3 ∧
    after (exec (.subVxVy flagReg 1#4) State.reset) (·.fault) = some 0#3 ∧
    after (exec (.shrVxVy 1#4 flagReg) State.reset) (·.fault) = some 0#3 ∧
    after (exec (.shlVxVy flagReg 1#4) State.reset) (·.fault) = some 0#3 ∧ (1#4 : Nibble) ≠ flagReg := by decide
/-- A draw of no row, and draws whose last row is the last byte of memory and the byte after it. -/
theorem witness_Drw : (min (0#4 : Nibble).toNat (32 - 0) = 0) ∧
    (min (2#4 : Nibble).toNat (32 - 0) = 2 ∧ (0x0FFE#16 : Word).toNat + 2 - 1 ≤ 0x0FFF) ∧
    (min (15#4 : Nibble).toNat (32 - 31) = 1 ∧ 0 < 1 ∧ 0x0FFF < (0x1000#16 : Word).toNat + 1 - 1) ∧
    after (exec (.drw 0#4 1#4 2#4) { State.reset with index := 0x0FFE#16 }) (fun t => (t.fault, t.getV 0, t.getV 1)) =
      some (0#3, 0#8, 0#8) := by decide
theorem witness_ticks : ({ State.reset with dt := 1#8, events := [.delayTick, .soundTick] } : State).upcoming = .delayTick ∧
    ({ State.reset with st := 2#8, events := [.soundTick, .soundTick, .delayTick] } : State).upcoming = .soundTick ∧
    (∀ j, j < 2 → ({ State.reset with st := 1#8, events := [.soundTick, .soundTick, .delayTick] } : State).eventAt j =
      .soundTick) := by
  refine ⟨by decide, by decide, fun j hj => ?_⟩
  rcases j with - | - | j
  · rfl
  · rfl
  · omega
theorem witness_TicksCommuteWithOtherSteps : (fetching 0x6111).fault = 0#3 ∧
    decode (fetching 0x6111).fetchBytes = .ok (.ldVxKk 1#4 0x11#8) ∧ touchesTimer (.ldVxKk 1#4 0x11#8) = false := by decide
theorem witness_UnrecognisedWordsDoNothing : (∀ r ∈ formRows, r.selects 0x00E1#16 = false) ∧
    (Instr.nop0 0x0E1#12).isNop = true ∧ (Instr.nopF 0xFFF#12).isNop = true ∧ (Instr.ldStVx 15#4).isNop = false ∧
    (fetching 0x00E1).fault = 0#3 ∧ (fetching 0x00E1).pc.toNat ≤ 0x0FFE ∧
    decode (fetching 0x00E1).fetchBytes = .ok (.nop0 0x0E1#12) := by decide
theorem witness_ResetLeavesResetValues :
    ({ State.reset with events := [.reset (List.replicate 3584 1#8)] } : State).upcoming = .reset (List.replicate 3584 1#8) ∧
    (List.replicate 3584 (1#8 : Byte)).length ≤ 3584 ∧ ([] : List Byte).length ≤ 3584 :=
  ⟨rfl, le_of_eq List.length_replicate, Nat.zero_le _⟩
theorem witness_OverlongImageRefused :
    ({ State.reset with events := [.reset (List.replicate 3585 1#8)] } : State).upcoming = .reset (List.replicate 3585 1#8) ∧
    3584 < (List.replicate 3585 (1#8 : Byte)).length :=
  ⟨rfl, lt_of_lt_of_eq (by decide) List.length_replicate.symm⟩
theorem witness_HostReadsChangeNothing :
    ({ State.reset with events := [.query 63#6 31#5, .readFault] } : State).upcoming = .query 63#6 31#5 ∧
    ({ State.reset with events := [.readFault] } : State).upcoming = .readFault := by decide

end Sys2Proof.Tests
end

section
/-! PROOFS. What one execute phase does to the state as a whole: its frame, memory, the timers, the invariant of R23
(spec/10_state.md). -/

namespace Sys2Proof.Machine

variable {s t : State}

/-! ### Frames of the state's updates (R10 to R18) -/

section
variable (s)
variable {ps : List Part} (rs : List Nibble)

theorem OnlyChanged.setPc (h : .pc ∈ ps) (a : Word) : OnlyChanged rs ps s (s.setPc a) :=
  ⟨fun _ _ => rfl, fun p hp => by cases p <;> simp_all [Part.Same]⟩

theorem OnlyChanged.setIndex (h : .index ∈ ps) (a : Word) : OnlyChanged rs ps s (s.setIndex a) :=
  ⟨fun _ _ => rfl, fun p hp => by cases p <;> simp_all [Part.Same]⟩

theorem OnlyChanged.setDt (h : .dt ∈ ps) (b : Byte) : OnlyChanged rs ps s (s.setDt b) :=
  ⟨fun _ _ => rfl, fun p hp => by cases p <;> simp_all [Part.Same]⟩

theorem OnlyChanged.setSt (h : .st ∈ ps) (b : Byte) : OnlyChanged rs ps s (s.setSt b) :=
  ⟨fun _ _ => rfl, fun p hp => by cases p <;> simp_all [Part.Same]⟩

theorem OnlyChanged.setFb (h : .display ∈ ps) (f : Framebuffer) : OnlyChanged rs ps s (s.setFb f) :=
  ⟨fun _ _ => rfl, fun p hp => by cases p <;> simp_all [Part.Same]⟩

theorem OnlyChanged.drawn (h : .draws ∈ ps) : OnlyChanged rs ps s s.drawn :=
  ⟨fun _ _ => rfl, fun p hp => by cases p <;> simp_all [Part.Same]⟩

theorem OnlyChanged.emit (h : .outputs ∈ ps) (o : Output) : OnlyChanged rs ps s (s.emit o) :=
  ⟨fun _ _ => rfl, fun p hp => by cases p <;> simp_all [Part.Same]⟩

/-- A fault of the execute phase changes only `PC`, by undoing the fetch, and `FAULT` (R152; log 7). -/
theorem OnlyChanged.raise_beforeFetch (c : FaultCode) : OnlyChanged [] [.pc, .fault] s (raise c s.beforeFetch) :=
  ⟨fun _ _ => rfl, fun p hp => by cases p <;> simp_all [Part.Same]⟩

end

theorem raise_fault_ne_zero (c : FaultCode) (s : State) : (raise c s).fault ≠ 0#3 := code_ne_zero c

/-! ### The instructions that can fault, by their condition -/

theorem exec_ret_of_pos (h : 0 < s.sp.val) :
    exec .ret s = .next { s with sp := ⟨s.sp.val - 1, by omega⟩, pc := s.stack[s.sp.val - 1]'(by omega) } := by
  rcases exec_ret_cases s with ⟨_, e⟩ | ⟨h0, _⟩
  · exact e
  · omega

theorem exec_ret_of_empty (h : s.sp.val = 0) : exec .ret s = .next (raise .stackUnderflow s.beforeFetch) := by
  rcases exec_ret_cases s with ⟨h0, _⟩ | ⟨_, e⟩
  · omega
  · exact e

theorem exec_call_of_room (nnn : Addr) (h : s.sp.val < 16) : exec (.call nnn) s =
    .next { s with stack := s.stack.set s.sp.val s.pc h, sp := ⟨s.sp.val + 1, by omega⟩, pc := zext16 nnn } := by
  rcases exec_call_cases s nnn with ⟨_, e⟩ | ⟨h0, _⟩
  · exact e
  · omega

theorem exec_call_of_full (nnn : Addr) (h : s.sp.val = 16) :
    exec (.call nnn) s = .next (raise .stackOverflow s.beforeFetch) := by
  rcases exec_call_cases s nnn with ⟨h0, _⟩ | ⟨_, e⟩
  · omega
  · exact e

theorem exec_drw_of_inside {x y n : Nibble} (h : s.spriteOutside y n = false) : exec (.drw x y n) s =
    .next ((s.setFb (s.drawSprite (s.startColumn x) (s.startRow y) (s.drawnRows y n)).1).setV flagReg
      (flagByte (s.drawSprite (s.startColumn x) (s.startRow y) (s.drawnRows y n)).2)) := by
  rcases exec_drw_cases s x y n with ⟨_, e⟩ | ⟨h0, _⟩
  · exact e
  · simp [h] at h0

theorem exec_drw_of_outside {x y n : Nibble} (h : s.spriteOutside y n = true) :
    exec (.drw x y n) s = .next (raise .spriteOutOfBounds s.beforeFetch) := by
  rcases exec_drw_cases s x y n with ⟨h0, _⟩ | ⟨_, e⟩
  · simp [h] at h0
  · exact e

/-! ### What an instruction writes (R10, R12 to R18) -/

/-- An instruction changes only what the spec lists for it, or takes a fault (R152). -/
theorem exec_frame {i : Instr} (h : exec i s = .next t) :
    OnlyChanged (regsWritten i) (partsWritten i) s t ∨ ∃ c, t = raise c s.beforeFetch := by
  cases i
  case cls => cases h; exact .inl (.setFb s _ (List.mem_singleton_self _) _)
  case ret =>
    rcases exec_ret_cases s with ⟨_, e⟩ | ⟨_, e⟩ <;> rw [e] at h <;> cases h
    · exact .inl ⟨fun _ _ => rfl, fun p hp => by
        cases p <;> simp_all [partsWritten, Part.Same, State.pixel, State.memRead]⟩
    · exact .inr ⟨_, rfl⟩
  case call nnn =>
    rcases exec_call_cases s nnn with ⟨_, e⟩ | ⟨_, e⟩ <;> rw [e] at h <;> cases h
    · exact .inl ⟨fun _ _ => rfl, fun p hp => by
        cases p <;> simp_all [partsWritten, Part.Same, State.pixel, State.memRead]⟩
    · exact .inr ⟨_, rfl⟩
  case drw x y n =>
    rcases exec_drw_cases s x y n with ⟨_, e⟩ | ⟨_, e⟩ <;> rw [e] at h <;> cases h
    · exact .inl (.trans (.setFb s _ (List.mem_singleton_self _) _) (.setV _ (List.mem_singleton_self _) _ _))
    · exact .inr ⟨_, rfl⟩
  case jp | jpV0 => cases h; exact .inl (.setPc s _ (List.mem_singleton_self _) _)
  case ldI => cases h; exact .inl (.setIndex s _ (List.mem_singleton_self _) _)
  case ldDtVx => cases h; exact .inl (.setDt s _ (List.mem_singleton_self _) _)
  case ldStVx => cases h; exact .inl (.setSt s _ (List.mem_singleton_self _) _)
  case rnd =>
    cases h
    exact .inl (.trans (.drawn s _ (List.mem_singleton_self _)) (.setV _ (List.mem_singleton_self _) _ _))
  case ldVxKk | addVxKk | ldVxVy | orVxVy | andVxVy | xorVxVy | ldVxDt =>
    cases h
    exact .inl (.setV s (List.mem_singleton_self _) _ _)
  case addVxVy x _ | subVxVy x _ =>
    cases h
    have hx : x ∈ [x, flagReg] := List.mem_cons_self
    have hf : flagReg ∈ [x, flagReg] := List.mem_cons_of_mem x (List.mem_singleton_self _)
    exact .inl (.trans (.setV s hf _ _) (.setV _ hx _ _))
  case shrVxVy x _ | shlVxVy x _ =>
    cases h
    have hx : x ∈ [x, flagReg] := List.mem_cons_self
    have hf : flagReg ∈ [x, flagReg] := List.mem_cons_of_mem x (List.mem_singleton_self _)
    exact .inl (.trans (.trans (.setV s hx _ _) (.setV _ hx _ _)) (.setV _ hf _ _))
  all_goals
    cases h
    exact .inl (.refl s _ _)

theorem fault_notMem_partsWritten (i : Instr) : .fault ∉ partsWritten i := by cases i <;> simp [partsWritten]

theorem dt_mem_partsWritten {i : Instr} : .dt ∈ partsWritten i ↔ ∃ x, i = .ldDtVx x := by
  cases i <;> simp [partsWritten]

theorem st_mem_partsWritten {i : Instr} : .st ∈ partsWritten i ↔ ∃ x, i = .ldStVx x := by
  cases i <;> simp [partsWritten]

/-- `DT` is written by its own `LD` only (R14). -/
theorem exec_dt {i : Instr} (h : exec i s = .next t) (hi : ¬ ∃ x, i = .ldDtVx x) : t.dt = s.dt := by
  rcases exec_frame h with hf | ⟨_, rfl⟩
  · exact hf.2 .dt (mt dt_mem_partsWritten.1 hi)
  · rfl

/-- `ST` is written by its own `LD` only (R15). -/
theorem exec_st {i : Instr} (h : exec i s = .next t) (hi : ¬ ∃ x, i = .ldStVx x) : t.st = s.st := by
  rcases exec_frame h with hf | ⟨_, rfl⟩
  · exact hf.2 .st (mt st_mem_partsWritten.1 hi)
  · rfl

/-- No instruction stores to memory (R48): the list of cells is the same, not only every byte. -/
theorem exec_mem {i : Instr} (h : exec i s = .next t) : t.mem = s.mem := by
  cases i
  case ret => rcases exec_ret_cases s with ⟨_, e⟩ | ⟨_, e⟩ <;> rw [e] at h <;> cases h <;> rfl
  case call nnn => rcases exec_call_cases s nnn with ⟨_, e⟩ | ⟨_, e⟩ <;> rw [e] at h <;> cases h <;> rfl
  case drw x y n => rcases exec_drw_cases s x y n with ⟨_, e⟩ | ⟨_, e⟩ <;> rw [e] at h <;> cases h <;> rfl
  all_goals
    cases h
    rfl

/-- Settles O18: the frame of a run without fault, and that of taking a fault. -/
theorem eachInstructionsWrites : Obligations.EachInstructionsWrites := by
  unfold Obligations.EachInstructionsWrites
  intro i s t hs h
  rcases exec_frame h with hf | ⟨c, rfl⟩
  · have hsame : t.fault = s.fault := hf.2 .fault (fault_notMem_partsWritten i)
    exact ⟨fun _ => hf, fun ht => absurd (hsame.trans hs) ht⟩
  · exact ⟨fun h0 => absurd h0 (raise_fault_ne_zero c _), fun _ => ⟨.raise_beforeFetch s c, rfl⟩⟩

end Sys2Proof.Machine
end

section
/-! PROOFS. The invariant of R23: every update, every instruction and every event keeps it (spec/10_state.md). -/

namespace Sys2Proof.Machine

variable {s t : State}

/-! ### Updates that keep the invariant -/

theorem State.Inv.taken (h : s.Inv) : s.taken.Inv := by
  obtain ⟨es, n, e⟩ := taken_cases s
  rw [e]
  exact ⟨h.index_le, h.pc_le, h.fault_le, h.stack_le, h.mem_wf⟩

theorem State.Inv.setV (h : s.Inv) (r : Nibble) (b : Byte) : (s.setV r b).Inv :=
  ⟨h.index_le, h.pc_le, h.fault_le, h.stack_le, h.mem_wf⟩

theorem State.Inv.setPc (h : s.Inv) {a : Word} (ha : a.toNat ≤ 0x10FE) : (s.setPc a).Inv :=
  ⟨h.index_le, ha, h.fault_le, h.stack_le, h.mem_wf⟩

theorem State.Inv.setIndex (h : s.Inv) {a : Word} (ha : a.toNat ≤ 0x0FFF) : (s.setIndex a).Inv :=
  ⟨ha, h.pc_le, h.fault_le, h.stack_le, h.mem_wf⟩

theorem State.Inv.setDt (h : s.Inv) (b : Byte) : (s.setDt b).Inv :=
  ⟨h.index_le, h.pc_le, h.fault_le, h.stack_le, h.mem_wf⟩

theorem State.Inv.setSt (h : s.Inv) (b : Byte) : (s.setSt b).Inv :=
  ⟨h.index_le, h.pc_le, h.fault_le, h.stack_le, h.mem_wf⟩

theorem State.Inv.setFb (h : s.Inv) (f : Framebuffer) : (s.setFb f).Inv :=
  ⟨h.index_le, h.pc_le, h.fault_le, h.stack_le, h.mem_wf⟩

theorem State.Inv.drawn (h : s.Inv) : s.drawn.Inv := ⟨h.index_le, h.pc_le, h.fault_le, h.stack_le, h.mem_wf⟩

theorem State.Inv.emit (h : s.Inv) (o : Output) : (s.emit o).Inv :=
  ⟨h.index_le, h.pc_le, h.fault_le, h.stack_le, h.mem_wf⟩

theorem State.Inv.raise (h : s.Inv) (c : FaultCode) : (raise c s).Inv :=
  ⟨h.index_le, h.pc_le, code_le c, h.stack_le, h.mem_wf⟩

/-- Undoing an advance of `PC` that did not wrap (log 7). -/
theorem State.Inv.beforeFetch (h : s.Inv) (h2 : 2 ≤ s.pc.toNat) : s.beforeFetch.Inv := by
  refine ⟨h.index_le, ?_, h.fault_le, h.stack_le, h.mem_wf⟩
  have hsub : (s.pc - 2#16).toNat = s.pc.toNat - 2 := BitVec.toNat_sub_of_le h2
  have := h.pc_le
  rw [beforeFetch_pc, hsub]
  omega

/-- A fetch from memory advances `PC` to 2 to 0x1000. -/
theorem fetched_pc_toNat (rnd : Option Byte) (hpc : s.pc.toNat ≤ 0x0FFE) :
    (s.fetched rnd).pc.toNat = s.pc.toNat + 2 := by
  rw [fetched_pc, BitVec.toNat_add, BitVec.toNat_ofNat]
  omega

theorem State.Inv.fetched (h : s.Inv) (rnd : Option Byte) (hpc : s.pc.toNat ≤ 0x0FFE) : (s.fetched rnd).Inv := by
  refine ⟨h.index_le, ?_, h.fault_le, h.stack_le, h.mem_wf⟩
  have := fetched_pc_toNat rnd hpc
  omega

/-- A pushed return address that is a `PC` after a fetch keeps the bound on the entries in use (R17). -/
theorem State.Inv.called (h : s.Inv) (hpc : s.pc.toNat ≤ 0x1000) (hroom : s.sp.val < 16) (nnn : Addr) :
    ({ s with
        stack := s.stack.set s.sp.val s.pc hroom
        sp := ⟨s.sp.val + 1, by omega⟩
        pc := zext16 nnn } : State).Inv := by
  refine ⟨h.index_le, le_trans (zext16_le nnn) (by omega), h.fault_le, fun k hk hk16 => ?_, h.mem_wf⟩
  by_cases htop : s.sp.val = k
  · simpa [htop] using hpc
  · have hbelow : k < s.sp.val := by
      have : k < s.sp.val + 1 := hk
      omega
    simpa [htop] using h.stack_le k hbelow hk16

/-- A popped return address is at most 0x1000, and the entries below it stay in use (R80). -/
theorem State.Inv.returned (h : s.Inv) (hpos : 0 < s.sp.val) :
    ({ s with sp := ⟨s.sp.val - 1, by omega⟩, pc := s.stack[s.sp.val - 1]'(by omega) } : State).Inv := by
  refine ⟨h.index_le, ?_, h.fault_le, fun k hk hk16 => ?_, h.mem_wf⟩
  · have := h.stack_le (s.sp.val - 1) (by omega) (by omega)
    exact le_trans this (by omega)
  · have hbelow : k < s.sp.val - 1 := hk
    exact h.stack_le k (by omega) hk16

/-- At reset every bound is of a zero or of 0x200, and no stack entry is in use (R22). -/
theorem inv_reset : State.reset.Inv :=
  ⟨by decide, by decide, by decide, fun k hk _ => absurd hk (Nat.not_lt_zero k), wf_reset⟩

theorem inv_resetWith (image : List Byte) : (s.resetWith image).Inv :=
  ⟨inv_reset.index_le, inv_reset.pc_le, inv_reset.fault_le, inv_reset.stack_le, wf_imageMemory image⟩

/-! ### Instructions and events -/

/-- Every instruction keeps the invariant, from a state in which `PC` is advanced by a fetch (R23, R25). -/
theorem exec_keeps_inv {i : Instr} (hI : s.Inv) (h2 : 2 ≤ s.pc.toNat) (hpc : s.pc.toNat ≤ 0x1000)
    (h : exec i s = .next t) : t.Inv := by
  cases i
  case ret =>
    rcases exec_ret_cases s with ⟨hpos, e⟩ | ⟨_, e⟩ <;> rw [e] at h <;> cases h
    · exact hI.returned hpos
    · exact (hI.beforeFetch h2).raise _
  case call nnn =>
    rcases exec_call_cases s nnn with ⟨hroom, e⟩ | ⟨_, e⟩ <;> rw [e] at h <;> cases h
    · exact hI.called hpc hroom nnn
    · exact (hI.beforeFetch h2).raise _
  case drw x y n =>
    rcases exec_drw_cases s x y n with ⟨_, e⟩ | ⟨_, e⟩ <;> rw [e] at h <;> cases h
    · exact (hI.setFb _).setV _ _
    · exact (hI.beforeFetch h2).raise _
  case cls => cases h; exact hI.setFb _
  case jp nnn => cases h; exact hI.setPc (le_trans (zext16_le nnn) (by omega))
  case jpV0 nnn =>
    cases h
    refine hI.setPc ?_
    rw [offsetTarget_toNat]
    have := nnn.isLt
    have := (s.getV 0x0#4).isLt
    omega
  case ldI nnn => cases h; exact hI.setIndex (zext16_le nnn)
  case rnd => cases h; exact hI.drawn.setV _ _
  case ldDtVx => cases h; exact hI.setDt _
  case ldStVx => cases h; exact hI.setSt _
  case ldVxKk | addVxKk | ldVxVy | orVxVy | andVxVy | xorVxVy | ldVxDt => cases h; exact hI.setV _ _
  case addVxVy | subVxVy => cases h; exact (hI.setV _ _).setV _ _
  case shrVxVy | shlVxVy => cases h; exact ((hI.setV _ _).setV _ _).setV _ _
  all_goals
    cases h
    exact hI

theorem cpuStep_keeps_inv {rnd : Option Byte} (hI : s.Inv) (h : cpuStep rnd s = .next t) : t.Inv := by
  rcases cpuStep_cases s rnd with ⟨_, e⟩ | ⟨_, _, e⟩ | ⟨_, hpc, e⟩ <;> rw [e] at h
  · cases h; exact hI
  · cases h; exact hI.raise _
  · have hadv := fetched_pc_toNat rnd hpc
    exact exec_keeps_inv (hI.fetched rnd hpc) (by omega) (by omega) h

/-- A reset that has a next state has an image of at most 3584 bytes (R43). -/
theorem resetEvent_next {image : List Byte} (h : resetEvent image s = .next t) :
    image.length ≤ Config.progMax ∧ t = s.resetWith image := by
  by_cases hfit : image.length ≤ Config.progMax
  · rw [resetEvent_ok s hfit] at h
    cases h
    exact ⟨hfit, rfl⟩
  · unfold resetEvent at h
    rw [if_neg hfit] at h
    cases h

/-- Settles O14: by the event that happens, and in a step of the CPU by the instruction that runs. -/
theorem everyEventKeepsInvariant : Obligations.EveryEventKeepsInvariant := by
  unfold Obligations.EveryEventKeepsInvariant
  intro s t hs h
  have hI := hs.taken
  rcases step_cases s with ⟨rnd, _, e⟩ | ⟨_, e⟩ | ⟨_, e⟩ | ⟨x, y, _, e⟩ | ⟨_, e⟩ | ⟨image, _, e⟩ <;> rw [e] at h
  · exact cpuStep_keeps_inv hI h
  · cases h; rw [delayTick_eq]; exact hI.setDt _
  · cases h
    rcases soundTick_cases s.taken with ⟨_, e⟩ | ⟨_, e⟩ <;> rw [e]
    · exact (hI.emit _).setSt _
    · exact hI
  · cases h; exact hI.emit _
  · cases h; exact hI.emit _
  · obtain ⟨_, rfl⟩ := resetEvent_next h
    exact inv_resetWith image

/-- Settles O13, by the values of R22. -/
theorem invariantAtReset : Obligations.InvariantAtReset := inv_reset

end Sys2Proof.Machine
end

section
/-! PROOFS. The order of events, the step of the CPU, and what events leave alone (spec/10_state.md R19, R24 to R29, R185). -/

namespace Sys2Proof.Machine

variable {s t : State}

/-! ### The next event (R24, R25) -/

theorem upcoming_of_empty (h : s.events = []) : s.upcoming = Config.freeEvent s.served := by
  unfold State.upcoming
  rw [h]

theorem taken_of_empty (h : s.events = []) : s.taken = { s with served := s.served + 1 } := by
  unfold State.taken
  rw [h]

/-- Settles O53: `step` is one event by definition, and the two forms of the queue give the event and what is left. -/
theorem eventsHappenInOrder : Obligations.EventsHappenInOrder := by
  unfold Obligations.EventsHappenInOrder
  exact fun s => ⟨rfl, fun _ _ h => ⟨upcoming_of_queue h, taken_of_queue h⟩,
    fun h => ⟨upcoming_of_empty h, taken_of_empty h⟩⟩

theorem cpuStep_next (s : State) (rnd : Option Byte) : ∃ t, cpuStep rnd s = .next t := by
  rcases cpuStep_cases s rnd with ⟨_, e⟩ | ⟨_, _, e⟩ | ⟨_, _, e⟩ <;> rw [e]
  · exact ⟨_, rfl⟩
  · exact ⟨_, rfl⟩
  · exact exec_next _ _

/-- Settles O10: only a reset can be refused, and only by the length of its image. -/
theorem everyEventHasNextState : Obligations.EveryEventHasNextState := by
  unfold Obligations.EveryEventHasNextState
  intro s hfit
  rcases step_cases s with ⟨rnd, _, e⟩ | ⟨_, e⟩ | ⟨_, e⟩ | ⟨x, y, _, e⟩ | ⟨_, e⟩ | ⟨image, hup, e⟩ <;> rw [e]
  · exact cpuStep_next _ _
  · exact ⟨_, rfl⟩
  · exact ⟨_, rfl⟩
  · exact ⟨_, rfl⟩
  · exact ⟨_, rfl⟩
  · exact ⟨_, resetEvent_ok _ (hfit image hup)⟩

/-- Settles O54, by induction on the number of steps: the first step happens by O10, and what is ahead after it is the
rest of the history. -/
theorem historyAheadHappens : Obligations.HistoryAheadHappens := by
  unfold Obligations.HistoryAheadHappens
  intro k
  induction k with
  | zero => exact fun s _ => ⟨s, rfl, (eventAt_zero s).symm, fun j => by rw [Nat.zero_add]⟩
  | succ k ih =>
    intro s hfit
    have hfirst : ∀ image, s.upcoming = .reset image → image.length ≤ 3584 := fun image he =>
      hfit 0 image (Nat.succ_pos k) ((eventAt_zero s).trans he)
    obtain ⟨u, hu⟩ := everyEventHasNextState s hfirst
    have hrest : ∀ j image, j < k → u.eventAt j = .reset image → image.length ≤ 3584 := fun j image hj he =>
      hfit (j + 1) image (Nat.succ_lt_succ hj) ((step_eventAt hu j).symm.trans he)
    obtain ⟨t, ht, hup, hahead⟩ := ih u hrest
    refine ⟨t, (steps_succ hu).trans ht, hup.trans (step_eventAt hu k), fun j => ?_⟩
    rw [hahead j, step_eventAt hu, Nat.add_right_comm]

/-- Settles O7: a running core that can fetch goes to the execute phase, and two bytes decode to one instruction. -/
theorem stepRunsDecodedInstruction : Obligations.StepRunsDecodedInstruction := by
  unfold Obligations.StepRunsDecodedInstruction
  intro s rnd i hup hfault hpc hdec
  have hi : decodeWord s.fetchWord = i := Except.ok.inj ((decode_fetchBytes s).symm.trans hdec)
  rw [step_of_requested ⟨hup, rfl⟩, cpuStep_exec _ _ (by rwa [taken_fault]) (by rwa [taken_pc]), taken_fetchWord, hi]
  unfold State.fetched
  rw [taken_pc]

/-- A word placed in a canonical memory, both bytes below 0x1000, is the word the fetch reads (R45). -/
theorem fetchWord_withWordAtPc (hwf : s.mem.wf = true) (hpc : s.pc.toNat ≤ 0x0FFE) (w : Word) :
    (s.withWordAtPc w).fetchWord = w := by
  have hlow : (s.withWordAtPc w).memRead (s.pc.toNat + 1) = lowByte w :=
    read_write_same (wf_write hwf _ _) (by unfold Config.memSize; omega) _
  have hhigh : (s.withWordAtPc w).memRead s.pc.toNat = highByte w :=
    (read_write_other _ (by omega) _).trans (read_write_same hwf (by unfold Config.memSize; omega) _)
  calc (s.withWordAtPc w).fetchWord
      = wordOfBytes ((s.withWordAtPc w).memRead s.pc.toNat) ((s.withWordAtPc w).memRead (s.pc.toNat + 1)) := rfl
    _ = w := by rw [hhigh, hlow, wordOfBytes_highByte_lowByte]

/-- Settles O12: the step is the one event of the queue, the core runs, and the placed word is what it fetches. -/
theorem placedWordRunsNext : Obligations.PlacedWordRunsNext := by
  unfold Obligations.PlacedWordRunsNext
  intro s nbits w _ hwf hpc
  have hqueue : (s.withFetchWord nbits w).events = .step none :: [] := rfl
  have hword : (s.withFetchWord nbits w).fetchWord = tableWord nbits w := fetchWord_withWordAtPc hwf hpc _
  rw [step_of_requested ⟨upcoming_of_queue hqueue, rfl⟩, cpuStep_exec (s.withFetchWord nbits w).taken none rfl hpc,
    taken_fetchWord, hword]
  rfl

/-! ### What an event leaves alone -/

theorem cpuStep_mem {rnd : Option Byte} (h : cpuStep rnd s = .next t) : t.mem = s.mem := by
  rcases cpuStep_cases s rnd with ⟨_, e⟩ | ⟨_, _, e⟩ | ⟨_, _, e⟩ <;> rw [e] at h
  · cases h; rfl
  · cases h; rfl
  · exact exec_mem (s := s.fetched rnd) h

theorem soundTick_mem (s : State) : s.soundTick.mem = s.mem := by
  rcases soundTick_cases s with ⟨_, e⟩ | ⟨_, e⟩ <;> rw [e]
  rfl

theorem step_mem (hreset : ¬ ResetWaiting s) (h : step s = .next t) : t.mem = s.mem := by
  rw [← taken_mem s]
  rcases step_cases s with ⟨rnd, _, e⟩ | ⟨_, e⟩ | ⟨_, e⟩ | ⟨x, y, _, e⟩ | ⟨_, e⟩ | ⟨image, hup, _⟩
  · exact cpuStep_mem (e ▸ h)
  · cases e.symm.trans h; rw [delayTick_eq]; rfl
  · cases e.symm.trans h; exact soundTick_mem _
  · cases e.symm.trans h; rfl
  · cases e.symm.trans h; rfl
  · exact absurd ⟨image, hup⟩ hreset

/-- Settles O15: the cells of memory are the same, so every byte reads the same. -/
theorem memoryConstantBetweenResets : Obligations.MemoryConstantBetweenResets := by
  unfold Obligations.MemoryConstantBetweenResets
  intro s t hreset h
  have hmem := step_mem hreset h
  exact ⟨hmem, fun a => congrArg (Memory.read · a) hmem⟩

theorem delayTick_dt_le (s : State) : s.delayTick.dt.toNat ≤ s.dt.toNat := by
  have := s.dt.isLt
  rw [delayTick_eq, setDt_dt, BitVec.toNat_ofNat]
  omega

theorem soundTick_st_le (s : State) : s.soundTick.st.toNat ≤ s.st.toNat := by
  have := s.st.isLt
  rcases soundTick_cases s with ⟨_, e⟩ | ⟨_, e⟩ <;> rw [e]
  rw [setSt_st, BitVec.toNat_ofNat]
  omega

theorem soundTick_dt (s : State) : s.soundTick.dt = s.dt := by
  rcases soundTick_cases s with ⟨_, e⟩ | ⟨_, e⟩ <;> rw [e]
  rfl

/-- A step of the machine raises no timer, or it is the execute phase of the instruction at `PC` (R185). -/
theorem step_timers (h : step s = .next t) :
    (t.dt.toNat ≤ s.dt.toNat ∧ t.st.toNat ≤ s.st.toNat) ∨
    ∃ rnd i, s.upcoming = .step rnd ∧ decode s.fetchBytes = .ok i ∧ exec i (s.taken.fetched rnd) = .next t := by
  rw [← taken_dt s, ← taken_st s]
  rcases step_cases s with ⟨rnd, hup, e⟩ | ⟨_, e⟩ | ⟨_, e⟩ | ⟨x, y, _, e⟩ | ⟨_, e⟩ | ⟨image, _, e⟩ <;> rw [e] at h
  · rcases cpuStep_cases s.taken rnd with ⟨_, e⟩ | ⟨_, _, e⟩ | ⟨_, _, e⟩ <;> rw [e] at h
    · cases h; exact .inl ⟨le_refl _, le_refl _⟩
    · cases h; exact .inl ⟨le_refl _, le_refl _⟩
    · rw [taken_fetchWord] at h
      exact .inr ⟨rnd, _, hup, decode_fetchBytes s, h⟩
  · cases h; exact .inl ⟨delayTick_dt_le _, by rw [delayTick_eq, setDt_st]⟩
  · cases h; exact .inl ⟨by rw [soundTick_dt], soundTick_st_le _⟩
  · cases h; exact .inl ⟨le_refl _, le_refl _⟩
  · cases h; exact .inl ⟨le_refl _, le_refl _⟩
  · obtain ⟨_, rfl⟩ := resetEvent_next h
    exact .inl ⟨Nat.zero_le _, Nat.zero_le _⟩

/-- Settles O17: an instruction writes a timer only by that timer's `LD`, and no other event raises one. -/
theorem timersNeverRise : Obligations.TimersNeverRise := by
  unfold Obligations.TimersNeverRise
  intro s t h
  rcases step_timers h with ⟨hdt, hst⟩ | ⟨rnd, i, hup, hdec, hexec⟩
  · exact ⟨fun _ => hdt, fun _ => hst⟩
  · constructor
    · intro hno
      have hi : ¬ ∃ x, i = .ldDtVx x := fun ⟨x, hx⟩ => hno ⟨rnd, _, x, ⟨hup, rfl⟩, hx ▸ hdec⟩
      rw [exec_dt hexec hi, fetched_dt, taken_dt]
    · intro hno
      have hi : ¬ ∃ x, i = .ldStVx x := fun ⟨x, hx⟩ => hno ⟨rnd, _, x, ⟨hup, rfl⟩, hx ▸ hdec⟩
      rw [exec_st hexec hi, fetched_st, taken_st]

/-- Settles O52: a read by the host only adds its answer to the outputs. -/
theorem hostReadsChangeNothing : Obligations.HostReadsChangeNothing := by
  unfold Obligations.HostReadsChangeNothing
  constructor
  · intro s x y hup
    refine ⟨_, step_of_event hup, ?_, .emit _ _ (List.mem_singleton_self _) _⟩
    rw [query_outputs, taken_outputs, taken_pixel]
  · intro s hup
    refine ⟨_, step_of_event hup, ?_, .emit _ _ (List.mem_singleton_self _) _⟩
    rw [readFault_outputs, taken_outputs, taken_fault]

/-! ### What a reset leaves (R22, R43, R44) -/

/-- Settles O50: the reset state is the values of R22 with the memory of the empty image. -/
theorem resetStateIsEmptyImageReset : Obligations.ResetStateIsEmptyImageReset := by
  unfold Obligations.ResetStateIsEmptyImageReset
  have hqueue : ({ State.reset with events := [.reset []] } : State).events = .reset [] :: [] := rfl
  rw [step_of_event (upcoming_of_queue hqueue), taken_of_queue hqueue]
  rfl

theorem font_length : Config.font.length = 80 := rfl

/-- The font stands at 0x050 where nothing is loaded over it (R44). -/
theorem font_getElem?_eq_unlisted {k : Nat} (hk : k < 80) : Config.font[k]? = some (unlisted (0x050 + k)) := by
  have hk' : k < Config.font.length := hk
  unfold unlisted Config.fontBase
  rw [if_pos (Nat.le_add_right _ _), Nat.add_sub_cancel_left, List.getD_eq_getElem _ _ hk', List.getElem?_eq_getElem hk']

/-- Outside the font an address reads 0x00 where nothing is loaded over it (R22). -/
theorem unlisted_eq_zero {a : Nat} (h : a < 0x050 ∨ 0x0A0 ≤ a) : unlisted a = 0x00#8 := by
  unfold unlisted Config.fontBase
  split
  · exact List.getD_eq_default _ _ (by rw [font_length]; omega)
  · rfl

/-- A reset puts byte `k` of the image at 0x200 + `k` (R43). -/
theorem resetWith_memRead_image (s : State) {image : List Byte} (hfit : image.length ≤ 3584) {k : Nat}
    (hk : k < image.length) : image[k]? = some ((s.resetWith image).memRead (0x200 + k)) := by
  have hread : (s.resetWith image).memRead (0x200 + k) = image[0x200 + k - 0x200]'(by omega) :=
    (read_imageMemory hfit _).trans (dif_pos ⟨Nat.le_add_right _ _, Nat.add_lt_add_left hk _⟩)
  simp [hread, hk]

/-- A reset leaves every address outside the image at the font and zeros (R22, R44). -/
theorem resetWith_memRead_outside (s : State) {image : List Byte} (hfit : image.length ≤ 3584) {a : Nat}
    (h : a < 0x200 ∨ 0x200 + image.length ≤ a) : (s.resetWith image).memRead a = unlisted a :=
  (read_imageMemory hfit a).trans (dif_neg (by unfold Config.progBase; omega))

theorem resetWith_getV (s : State) (image : List Byte) (r : Nibble) : (s.resetWith image).getV r = 0x00#8 :=
  Vector.getElem_replicate r.isLt

theorem resetWith_stack (s : State) (image : List Byte) {k : Nat} (hk : k < 16) :
    (s.resetWith image).stack[k]? = some 0x0000#16 := by
  have : (s.resetWith image).stack = Vector.replicate 16 0x0000#16 := rfl
  rw [this, Vector.getElem?_eq_getElem hk, Vector.getElem_replicate]

theorem resetWith_pixel (s : State) (image : List Byte) (x y : Nat) : (s.resetWith image).pixel x y = false :=
  get_blank x y

/-- Settles O49: the fields by R22, memory by the image, the font and zeros, and the events to come by the taking. -/
theorem resetLeavesResetValues : Obligations.ResetLeavesResetValues := by
  unfold Obligations.ResetLeavesResetValues
  refine ⟨font_length, fun s image hup hfit => ?_⟩
  have hstep : step s = .next (s.taken.resetWith image) := (step_of_event hup).trans (resetEvent_ok _ hfit)
  have hlow : ∀ a, a < 0x200 → (s.taken.resetWith image).memRead a = unlisted a := fun a ha =>
    resetWith_memRead_outside _ hfit (.inl ha)
  refine ⟨_, hstep, rfl, resetWith_getV _ _, rfl, rfl, fun _ => resetWith_stack _ _, rfl, rfl,
    fun x y _ _ => resetWith_pixel _ _ x y, rfl, fun _ => resetWith_memRead_image _ hfit, ?font, ?glyph0, ?zeros,
    step_eventAt hstep⟩
  case font =>
    intro k hk
    rw [hlow _ (by omega)]
    exact font_getElem?_eq_unlisted hk
  case glyph0 =>
    rw [hlow _ (by omega), hlow _ (by omega), hlow _ (by omega), hlow _ (by omega), hlow _ (by omega)]
    decide
  case zeros =>
    intro a ha
    rw [resetWith_memRead_outside _ hfit (by omega)]
    exact unlisted_eq_zero (by omega)

end Sys2Proof.Machine
end

section
/-! PROOFS. What instructions do not read, and the flags (spec/10_state.md R10, R11, R15, R21). -/

namespace Sys2Proof.Machine

variable {s t : State}

/-! ### Reads (R10) -/

/-- A register that is then written holds the value written, whatever it held before; any other keeps its value. -/
theorem setV_under_write (s : State) (r x : Nibble) (b c : Byte) :
    (s.setV r b).setV x c = if r ∈ [x] then s.setV x c else (s.setV x c).setV r b := by
  by_cases hx : r = x
  · rw [if_pos (List.mem_singleton.2 hx), hx, setV_setV_same]
  · rw [if_neg (mt List.mem_singleton.1 hx), setV_comm s hx]

/-- The same for two writes, the registers written being those of `rs`. -/
theorem setV_under_writes (s : State) {r x q : Nibble} {rs : List Nibble} (hrs : r ∈ rs ↔ r = x ∨ r = q) (b c d : Byte) :
    ((s.setV r b).setV x c).setV q d =
      if r ∈ rs then (s.setV x c).setV q d else ((s.setV x c).setV q d).setV r b := by
  by_cases hx : r = x
  · rw [if_pos (hrs.2 (.inl hx)), hx, setV_setV_same]
  · rw [setV_comm s hx, setV_under_write]
    simp only [hrs, hx, false_or, List.mem_singleton]

theorem getV_setV_of_ne {r q : Nibble} (h : r ≠ q) (b : Byte) : (s.setV r b).getV q = s.getV q := by
  rw [getV_setV, if_neg h.symm]

theorem setFb_setV (s : State) (r : Nibble) (b : Byte) (f : Framebuffer) :
    (s.setV r b).setFb f = (s.setFb f).setV r b := rfl

/-- A draw takes only its position from the registers (R121). -/
theorem drawSprite_setV (r : Nibble) (b : Byte) (x0 y0 rows : Nat) :
    (s.setV r b).drawSprite x0 y0 rows = s.drawSprite x0 y0 rows := rfl

theorem startColumn_setV_of_ne {r x : Nibble} (h : r ≠ x) (b : Byte) :
    (s.setV r b).startColumn x = s.startColumn x := by
  unfold State.startColumn
  rw [getV_setV_of_ne h]

theorem startRow_setV_of_ne {r y : Nibble} (h : r ≠ y) (b : Byte) : (s.setV r b).startRow y = s.startRow y := by
  unfold State.startRow
  rw [getV_setV_of_ne h]

theorem drawnRows_setV_of_ne {r y : Nibble} (h : r ≠ y) (b : Byte) (n : Nibble) :
    (s.setV r b).drawnRows y n = s.drawnRows y n := by
  unfold State.drawnRows
  rw [startRow_setV_of_ne h]

theorem spriteOutside_setV_of_ne {r y : Nibble} (h : r ≠ y) (b : Byte) (n : Nibble) :
    (s.setV r b).spriteOutside y n = s.spriteOutside y n := by
  unfold State.spriteOutside
  rw [drawnRows_setV_of_ne h, setV_index]

theorem offsetTarget_setV_of_ne {r : Nibble} (h : r ≠ 0x0#4) (b : Byte) (nnn : Addr) :
    (s.setV r b).offsetTarget nnn = s.offsetTarget nnn := by
  unfold State.offsetTarget
  rw [getV_setV_of_ne h]

/-- Settles O19, by instruction: what it computes from is the same, and its writes replace or leave the other value. -/
theorem eachInstructionsReads : Obligations.EachInstructionsReads := by
  unfold Obligations.EachInstructionsReads
  intro i r b s t _ hr h ht
  cases i
  case ret =>
    rcases exec_ret_cases s with ⟨hpos, e⟩ | ⟨_, e⟩ <;> rw [e] at h <;> cases h
    · exact exec_ret_of_pos (s := s.setV r b) hpos
    · exact absurd ht (raise_fault_ne_zero _ _)
  case call nnn =>
    rcases exec_call_cases s nnn with ⟨hroom, e⟩ | ⟨_, e⟩ <;> rw [e] at h <;> cases h
    · exact exec_call_of_room (s := s.setV r b) nnn hroom
    · exact absurd ht (raise_fault_ne_zero _ _)
  case drw x y n =>
    obtain ⟨hx, hy⟩ : r ≠ x ∧ r ≠ y := by simpa [regsRead] using hr
    rcases exec_drw_cases s x y n with ⟨hin, e⟩ | ⟨_, e⟩ <;> rw [e] at h <;> cases h
    · rw [exec_drw_of_inside ((spriteOutside_setV_of_ne hy b n).trans hin), startColumn_setV_of_ne hx,
        startRow_setV_of_ne hy, drawnRows_setV_of_ne hy, drawSprite_setV, setFb_setV]
      exact congrArg _ (setV_under_write (s.setFb _) r flagReg b _)
    · exact absurd ht (raise_fault_ne_zero _ _)
  case jpV0 nnn =>
    cases h
    have h0 : r ≠ 0x0#4 := by simpa [regsRead] using hr
    rw [exec_jpV0, execJpV0, offsetTarget_setV_of_ne h0]
    rfl
  case ldDtVx x =>
    cases h
    have hx : r ≠ x := by simpa [regsRead] using hr
    rw [exec_ldDtVx, execLdDtVx, getV_setV_of_ne hx]
    rfl
  case ldStVx x =>
    cases h
    have hx : r ≠ x := by simpa [regsRead] using hr
    rw [exec_ldStVx, execLdStVx, getV_setV_of_ne hx]
    rfl
  case ldVxKk | ldVxDt =>
    cases h
    exact congrArg _ (setV_under_write s r _ b _)
  case rnd =>
    cases h
    exact congrArg _ (setV_under_write s.drawn r _ b _)
  case addVxKk x kk =>
    cases h
    have hx : r ≠ x := by simpa [regsRead] using hr
    rw [exec_addVxKk, execAddVxKk, getV_setV_of_ne hx]
    exact congrArg _ (setV_under_write s r x b _)
  case ldVxVy x y =>
    cases h
    have hy : r ≠ y := by simpa [regsRead] using hr
    rw [exec_ldVxVy, execLdVxVy, getV_setV_of_ne hy]
    exact congrArg _ (setV_under_write s r x b _)
  case orVxVy x y | andVxVy x y | xorVxVy x y =>
    cases h
    obtain ⟨hx, hy⟩ : r ≠ x ∧ r ≠ y := by simpa [regsRead] using hr
    simp only [exec_orVxVy, exec_andVxVy, exec_xorVxVy, execOrVxVy, execAndVxVy, execXorVxVy, getV_setV_of_ne hx,
      getV_setV_of_ne hy]
    exact congrArg _ (setV_under_write s r x b _)
  case addVxVy x y | subVxVy x y =>
    cases h
    obtain ⟨hx, hy⟩ : r ≠ x ∧ r ≠ y := by simpa [regsRead] using hr
    simp only [exec_addVxVy, exec_subVxVy, execAddVxVy, execSubVxVy, getV_setV_of_ne hx, getV_setV_of_ne hy]
    exact congrArg _ (setV_under_writes s (by simp [regsWritten, or_comm]) b _ _)
  case shrVxVy x y | shlVxVy x y =>
    cases h
    have hy : r ≠ y := by simpa [regsRead] using hr
    simp only [exec_shrVxVy, exec_shlVxVy, execShrVxVy, execShlVxVy, getV_setV_of_ne hy, setV_setV_same]
    exact congrArg _ (setV_under_writes s (by simp [regsWritten]) b _ _)
  all_goals
    cases h
    rfl

/-! ### The sound timer (R15, R21) -/

/-- With another value in `ST` every instruction but `LD ST` does the same, taking its fault included. -/
theorem exec_setSt {i : Instr} (a : Byte) (h : exec i s = .next t) (hi : ¬ ∃ x, i = .ldStVx x) :
    exec i (s.setSt a) = .next (t.setSt a) := by
  cases i
  case ldStVx x => exact absurd ⟨x, rfl⟩ hi
  case ret =>
    rcases exec_ret_cases s with ⟨hpos, e⟩ | ⟨hempty, e⟩ <;> rw [e] at h <;> cases h
    · exact exec_ret_of_pos (s := s.setSt a) hpos
    · exact exec_ret_of_empty (s := s.setSt a) hempty
  case call nnn =>
    rcases exec_call_cases s nnn with ⟨hroom, e⟩ | ⟨hfull, e⟩ <;> rw [e] at h <;> cases h
    · exact exec_call_of_room (s := s.setSt a) nnn hroom
    · exact exec_call_of_full (s := s.setSt a) nnn hfull
  case drw x y n =>
    rcases exec_drw_cases s x y n with ⟨hin, e⟩ | ⟨hout, e⟩ <;> rw [e] at h <;> cases h
    · exact exec_drw_of_inside (s := s.setSt a) hin
    · exact exec_drw_of_outside (s := s.setSt a) hout
  all_goals
    cases h
    rfl

/-- Settles O20: `LD ST` overwrites the other value, and no other instruction reads or writes it. -/
theorem soundTimerUnobservable : Obligations.SoundTimerUnobservable := by
  unfold Obligations.SoundTimerUnobservable
  intro i a s t h
  refine ⟨?_, fun hi => ⟨exec_st h hi, exec_setSt a h hi⟩⟩
  rintro ⟨x, rfl⟩
  exact h

/-! ### Flags (R11) -/

theorem getV_setV_flagByte (s : State) (c : Bool) :
    (s.setV flagReg (flagByte c)).getV flagReg = 0#8 ∨ (s.setV flagReg (flagByte c)).getV flagReg = 1#8 := by
  rw [getV_setV, if_pos rfl]
  exact flagByte_cases c

/-- Settles O21: the last write to register 15 is of a flag. -/
theorem flagsAreZeroOrOne : Obligations.FlagsAreZeroOrOne := by
  unfold Obligations.FlagsAreZeroOrOne
  intro i s t _ h ht hi
  rcases hi with ⟨x, y, rfl | rfl, hx⟩ | ⟨x, y, rfl | rfl⟩ | ⟨x, y, n, rfl⟩
  · cases h; rw [getV_setV_of_ne hx]; exact getV_setV_flagByte _ _
  · cases h; rw [getV_setV_of_ne hx]; exact getV_setV_flagByte _ _
  · cases h; exact getV_setV_flagByte _ _
  · cases h; exact getV_setV_flagByte _ _
  · rcases exec_drw_cases s x y n with ⟨_, e⟩ | ⟨_, e⟩ <;> rw [e] at h <;> cases h
    · exact getV_setV_flagByte _ _
    · exact absurd ht (raise_fault_ne_zero _ _)

end Sys2Proof.Machine
end

section
/-! PROOFS. The canonical form of memory is determined by what memory reads as, and a reset with too long an image
(spec/20_memory.md R40, R43). -/

namespace Sys2Proof.Machine

/-! ### Canonical memories (R40; log 9) -/

@[simp] theorem read_cons_self (a : Nat) (b : Byte) (rest : Memory) : Memory.read ((a, b) :: rest) a = b :=
  if_pos rfl

/-- The first cell of a canonical memory shows: a memory that lists nothing up to that address reads otherwise there. -/
theorem not_wfFrom_above_head {lo a : Nat} {b : Byte} {rest m : Memory}
    (hm : Memory.wfFrom lo ((a, b) :: rest) = true)
    (hread : ∀ c, c < Config.memSize → Memory.read ((a, b) :: rest) c = m.read c) :
    ¬ Memory.wfFrom (a + 1) m = true := by
  intro habove
  obtain ⟨_, ha, hb, _⟩ := (wfFrom_cons lo a b rest).1 hm
  apply hb
  calc b = Memory.read ((a, b) :: rest) a := (read_cons_self a b rest).symm
    _ = m.read a := hread a ha
    _ = unlisted a := read_below habove (Nat.lt_succ_self a)

/-- Where two canonical memories have the same first cell, their rests read the same if they do. -/
theorem read_rest_eq {a : Nat} {b : Byte} {rest rest' : Memory} (hrest : Memory.wfFrom (a + 1) rest = true)
    (hrest' : Memory.wfFrom (a + 1) rest' = true) {c : Nat}
    (hread : Memory.read ((a, b) :: rest) c = Memory.read ((a, b) :: rest') c) : rest.read c = rest'.read c := by
  by_cases hc : a = c
  · rw [read_below hrest (by omega), read_below hrest' (by omega)]
  · rwa [read_cons, read_cons, if_neg hc, if_neg hc] at hread

/-- Memories canonical from `lo` on that read the same are the same: neither can list its first cell before the other. -/
theorem wfFrom_ext {lo : Nat} {m m' : Memory} (hm : Memory.wfFrom lo m = true) (hm' : Memory.wfFrom lo m' = true)
    (hread : ∀ a, a < Config.memSize → m.read a = m'.read a) : m = m' := by
  induction m generalizing lo m' with
  | nil =>
    cases m' with
    | nil => rfl
    | cons d rest' => exact absurd rfl (not_wfFrom_above_head hm' fun a ha => (hread a ha).symm)
  | cons d rest ih =>
    obtain ⟨k, b⟩ := d
    cases m' with
    | nil => exact absurd rfl (not_wfFrom_above_head hm hread)
    | cons d' rest' =>
      obtain ⟨k', b'⟩ := d'
      obtain ⟨_, hk, hb, hrest⟩ := (wfFrom_cons lo k b rest).1 hm
      obtain ⟨_, hk', hb', hrest'⟩ := (wfFrom_cons lo k' b' rest').1 hm'
      rcases lt_trichotomy k k' with hlt | rfl | hgt
      · exact absurd ((wfFrom_cons _ _ _ _).2 ⟨hlt, hk', hb', hrest'⟩) (not_wfFrom_above_head hm hread)
      · obtain rfl : b = b' := by simpa using hread k hk
        rw [ih hrest hrest' fun a ha => read_rest_eq hrest hrest' (hread a ha)]
      · exact absurd ((wfFrom_cons _ _ _ _).2 ⟨hgt, hk, hb, hrest⟩)
          (not_wfFrom_above_head hm' fun a ha => (hread a ha).symm)

/-- Settles O16: the canonical form from address 0 on. -/
theorem canonicalMemoriesEqual : Obligations.CanonicalMemoriesEqual := by
  unfold Obligations.CanonicalMemoriesEqual
  exact fun _ _ hm hm' hread => wfFrom_ext hm hm' hread

/-! ### A reset that is not accepted (R43; log 11) -/

theorem resetEvent_refused (s : State) {image : List Byte} (h : Config.progMax < image.length) :
    resetEvent image s = .refused .imageTooLong := by
  unfold resetEvent
  rw [if_neg h.not_ge]

/-- Settles O51: the event is the reset, which refuses by the length. -/
theorem overlongImageRefused : Obligations.OverlongImageRefused := by
  unfold Obligations.OverlongImageRefused
  exact fun s image hup hlong => (step_of_event hup).trans (resetEvent_refused s.taken hlong)

end Sys2Proof.Machine
end

section
/-! PROOFS. The decoder and the encoder are inverse to each other, and the decoder follows the opcode table
(spec/30_encoding.md R60 to R67). -/

namespace Sys2Proof.Laws.OwnRow

/-- Every instruction's word is one of its own row's words (the laws of OwnRow, together). -/
theorem statement_all : ∀ i : Instr, Statement i
  | .cls => cls | .ret => ret | .jp _ => jp _ | .call _ => call _ | .ldVxKk _ _ => ldVxKk _ _
  | .addVxKk _ _ => addVxKk _ _
  | .ldVxVy _ _ => ldVxVy _ _ | .orVxVy _ _ => orVxVy _ _ | .andVxVy _ _ => andVxVy _ _ | .xorVxVy _ _ => xorVxVy _ _
  | .addVxVy _ _ => addVxVy _ _ | .subVxVy _ _ => subVxVy _ _ | .shrVxVy _ _ => shrVxVy _ _
  | .shlVxVy _ _ => shlVxVy _ _
  | .ldI _ => ldI _ | .jpV0 _ => jpV0 _ | .rnd _ _ => rnd _ _ | .drw _ _ _ => drw _ _ _
  | .ldVxDt _ => ldVxDt _ | .ldDtVx _ => ldDtVx _ | .ldStVx _ => ldStVx _
  | .nop0 _ => nop0 _ | .nop3 _ => nop3 _ | .nop4 _ => nop4 _ | .nop5 _ => nop5 _ | .nop9 _ => nop9 _
  | .nopE _ => nopE _
  | .nop8x7 _ => nop8x7 _ | .nop8x8 _ => nop8x8 _ | .nop8x9 _ => nop8x9 _ | .nop8xA _ => nop8xA _
  | .nop8xB _ => nop8xB _ | .nop8xC _ => nop8xC _ | .nop8xD _ => nop8xD _ | .nop8xF _ => nop8xF _
  | .nopF _ => nopF _

end Sys2Proof.Laws.OwnRow

namespace Sys2Proof

variable {w : Word}

/-! ### The raw parts of a word (R61) -/

theorem wordOfBytes_toNat (high low : Byte) : (wordOfBytes high low).toNat = high.toNat * 256 + low.toNat := by
  have hshift : (high.setWidth 16 <<< 8).toNat = high.toNat <<< 8 := by
    simp only [BitVec.toNat_shiftLeft, BitVec.toNat_setWidth, Nat.shiftLeft_eq]
    omega
  calc (wordOfBytes high low).toNat
      = high.toNat <<< 8 ||| low.toNat := by
        rw [wordOfBytes, BitVec.toNat_or, hshift, BitVec.toNat_setWidth_of_le (by decide)]
    _ = high.toNat * 256 + low.toNat := by
        rw [← Nat.shiftLeft_add_eq_or_of_lt low.isLt, Nat.shiftLeft_eq]

/-- Settles O5: the fields are slices of the word's number, which is the high byte times 256 plus the low byte. -/
theorem rawPartsOfWord : Obligations.RawPartsOfWord := by
  unfold Obligations.RawPartsOfWord
  refine ⟨fun high low => ?_, by decide⟩
  have hword := wordOfBytes_toNat high low
  simp only [fieldOp, fieldX, fieldY, fieldN, BitVec.extractLsb'_toNat, Nat.shiftRight_eq_div_pow, hword,
    and_true]
  omega

/-! ### Every word is the encoding of what it decodes to (R60, R67) -/

theorem nibble_cases (n : Nibble) :
    n = 0x0#4 ∨ n = 0x1#4 ∨ n = 0x2#4 ∨ n = 0x3#4 ∨ n = 0x4#4 ∨ n = 0x5#4 ∨ n = 0x6#4 ∨ n = 0x7#4 ∨
      n = 0x8#4 ∨ n = 0x9#4 ∨ n = 0xA#4 ∨ n = 0xB#4 ∨ n = 0xC#4 ∨ n = 0xD#4 ∨ n = 0xE#4 ∨ n = 0xF#4 := by
  revert n
  decide

theorem wordOfOpNnn_of_op {op : Nibble} (h : fieldOp w = op) : wordOfOpNnn op (fieldNnn w) = w :=
  h ▸ wordOfOpNnn_fields w

theorem wordOfOpXKk_of_op {op : Nibble} {kk : Byte} (h : fieldOp w = op) (hkk : fieldKk w = kk) :
    wordOfOpXKk op (fieldX w) kk = w :=
  h ▸ hkk ▸ wordOfOpXKk_fields w

theorem wordOfNibbles_of_op {op fn : Nibble} (h : fieldOp w = op) (hfn : fieldN w = fn) :
    wordOfNibbles op (fieldX w) (fieldY w) fn = w :=
  h ▸ hfn ▸ wordOfNibbles_fields w

theorem wordOfAluNop_of_fn {fn : Nibble} (h : fieldOp w = 0x8#4) (hfn : fieldN w = fn) :
    wordOfAluNop (fieldXy w) fn = w :=
  hfn ▸ wordOfAluNop_fields w h

/-- The unrecognised words with `op = 0` are all but CLS and RET (R67). -/
theorem wf_nop0_iff (a : Addr) :
    (Instr.nop0 a).wf = true ↔ wordOfOpNnn 0x0#4 a ≠ 0x00E0#16 ∧ wordOfOpNnn 0x0#4 a ≠ 0x00EE#16 := by
  have hcls : wordOfOpNnn 0x0#4 a = 0x00E0#16 ↔ a = 0x0E0#12 :=
    ⟨fun h => wordOfOpNnn_injective h, fun h => h ▸ by decide⟩
  have hret : wordOfOpNnn 0x0#4 a = 0x00EE#16 ↔ a = 0x0EE#12 :=
    ⟨fun h => wordOfOpNnn_injective h, fun h => h ▸ by decide⟩
  simp [Instr.wf, hcls, hret]

/-- The unrecognised words with `op = F` are those whose low byte names no timer access (R67). -/
theorem wf_nopF_iff (a : Addr) :
    (Instr.nopF a).wf = true ↔ fieldKk (wordOfOpNnn 0xF#4 a) ≠ 0x07#8 ∧
      fieldKk (wordOfOpNnn 0xF#4 a) ≠ 0x15#8 ∧ fieldKk (wordOfOpNnn 0xF#4 a) ≠ 0x18#8 := by
  simp [Instr.wf, and_assoc]

/-- The `op = 8` group, by `fn`: eight forms of nibbles and eight sets that keep the ignored bits. -/
theorem decodeAlu_wf_encode (hop : fieldOp w = 0x8#4) : (decodeAlu w).wf = true ∧ encode (decodeAlu w) = w := by
  rcases nibble_cases (fieldN w) with
    h | h | h | h | h | h | h | h | h | h | h | h | h | h | h | h <;>
  simp [decodeAlu, encode, Instr.wf, h, wordOfNibbles_of_op hop h, wordOfAluNop_of_fn hop h]

/-- The `op = F` group, by `fb`. -/
theorem decodeTimer_wf_encode (hop : fieldOp w = 0xF#4) :
    (decodeTimer w).wf = true ∧ encode (decodeTimer w) = w := by
  unfold decodeTimer
  split_ifs with h07 h15 h18
  · exact ⟨rfl, wordOfOpXKk_of_op hop h07⟩
  · exact ⟨rfl, wordOfOpXKk_of_op hop h15⟩
  · exact ⟨rfl, wordOfOpXKk_of_op hop h18⟩
  · have hw := wordOfOpNnn_of_op hop
    exact ⟨(wf_nopF_iff _).2 (by rw [hw]; exact ⟨h07, h15, h18⟩), hw⟩

/-- Settles O2: the dispatch of R64, by `op`. -/
theorem encodeDecodeRoundTrip : Obligations.EncodeDecodeRoundTrip := by
  unfold Obligations.EncodeDecodeRoundTrip
  intro w
  by_cases hcls : w = 0x00E0#16
  · subst hcls; decide
  by_cases hret : w = 0x00EE#16
  · subst hret; decide
  rcases nibble_cases (fieldOp w) with
    h | h | h | h | h | h | h | h | h | h | h | h | h | h | h | h
  · have hw := wordOfOpNnn_of_op h
    rw [decodeWord_op0 h hcls hret]
    exact ⟨(wf_nop0_iff _).2 (by rw [hw]; exact ⟨hcls, hret⟩), hw⟩
  · rw [decodeWord_op1 h]; exact ⟨rfl, wordOfOpNnn_of_op h⟩
  · rw [decodeWord_op2 h]; exact ⟨rfl, wordOfOpNnn_of_op h⟩
  · rw [decodeWord_op3 h]; exact ⟨rfl, wordOfOpNnn_of_op h⟩
  · rw [decodeWord_op4 h]; exact ⟨rfl, wordOfOpNnn_of_op h⟩
  · rw [decodeWord_op5 h]; exact ⟨rfl, wordOfOpNnn_of_op h⟩
  · rw [decodeWord_op6 h]; exact ⟨rfl, wordOfOpXKk_of_op h rfl⟩
  · rw [decodeWord_op7 h]; exact ⟨rfl, wordOfOpXKk_of_op h rfl⟩
  · rw [decodeWord_op8 h]; exact decodeAlu_wf_encode h
  · rw [decodeWord_op9 h]; exact ⟨rfl, wordOfOpNnn_of_op h⟩
  · rw [decodeWord_opA h]; exact ⟨rfl, wordOfOpNnn_of_op h⟩
  · rw [decodeWord_opB h]; exact ⟨rfl, wordOfOpNnn_of_op h⟩
  · rw [decodeWord_opC h]; exact ⟨rfl, wordOfOpXKk_of_op h rfl⟩
  · rw [decodeWord_opD h]; exact ⟨rfl, wordOfNibbles_of_op h rfl⟩
  · rw [decodeWord_opE h]; exact ⟨rfl, wordOfOpNnn_of_op h⟩
  · rw [decodeWord_opF h]; exact decodeTimer_wf_encode h

/-! ### Every well-formed instruction is what its word decodes to (R62, R64, R66, R67) -/

theorem decodeWord_encode {i : Instr} (hwf : i.wf = true) : decodeWord (encode i) = i := by
  cases i with
  | cls | ret => decide
  -- format A
  | jp _ => simp [encode, decodeWord_op1]
  | call _ => simp [encode, decodeWord_op2]
  | ldI _ => simp [encode, decodeWord_opA]
  | jpV0 _ => simp [encode, decodeWord_opB]
  -- format I
  | ldVxKk _ _ => simp [encode, decodeWord_op6]
  | addVxKk _ _ => simp [encode, decodeWord_op7]
  | rnd _ _ => simp [encode, decodeWord_opC]
  -- format R
  | ldVxVy _ _ | orVxVy _ _ | andVxVy _ _ | xorVxVy _ _ => simp [encode, decodeWord_op8, decodeAlu]
  | addVxVy _ _ | subVxVy _ _ | shrVxVy _ _ | shlVxVy _ _ => simp [encode, decodeWord_op8, decodeAlu]
  -- format D
  | drw _ _ _ => simp [encode, decodeWord_opD]
  -- format T
  | ldVxDt _ | ldDtVx _ | ldStVx _ => simp [encode, decodeWord_opF, decodeTimer]
  -- the unrecognised words
  | nop0 a =>
    obtain ⟨hcls, hret⟩ := (wf_nop0_iff a).1 hwf
    simp [encode, decodeWord_op0, hcls, hret]
  | nop3 _ => simp [encode, decodeWord_op3]
  | nop4 _ => simp [encode, decodeWord_op4]
  | nop5 _ => simp [encode, decodeWord_op5]
  | nop9 _ => simp [encode, decodeWord_op9]
  | nopE _ => simp [encode, decodeWord_opE]
  | nop8x7 _ | nop8x8 _ | nop8x9 _ | nop8xA _ => simp [encode, decodeWord_op8, decodeAlu]
  | nop8xB _ | nop8xC _ | nop8xD _ | nop8xF _ => simp [encode, decodeWord_op8, decodeAlu]
  | nopF a =>
    obtain ⟨h07, h15, h18⟩ := (wf_nopF_iff a).1 hwf
    rw [encode, decodeWord_opF (by simp), decodeTimer, if_neg h07, if_neg h15, if_neg h18, fieldNnn_wordOfOpNnn]

@[simp] theorem decode_encodeBytes (i : Instr) : decode (encodeBytes i) = .ok (decodeWord (encode i)) := by
  simp [encodeBytes]

/-- Settles O1: the two bytes of an instruction make its word again. -/
theorem decodeEncodeRoundTrip : Obligations.DecodeEncodeRoundTrip := by
  unfold Obligations.DecodeEncodeRoundTrip
  intro i hwf
  have hword := decodeWord_encode hwf
  exact ⟨hword, (decode_encodeBytes i).trans (congrArg _ hword)⟩

theorem decodeWord_eq_of_encode {i : Instr} (hwf : i.wf = true) (h : encode i = w) : decodeWord w = i :=
  h ▸ decodeWord_encode hwf

/-- Settles O6 by the round trip: each word is the encoding of its instruction. -/
theorem writtenOutWordsDecode : Obligations.WrittenOutWordsDecode := by
  unfold Obligations.WrittenOutWordsDecode
  refine ⟨?_, ?_, ?_, ?_, ?_, ?_, ?_, ?_⟩ <;> exact decodeWord_eq_of_encode rfl (by decide)

/-! ### The opcode table (R64, R66, R67) -/

/-- The patterns of two rows agree on the bits that both masks look at. -/
def OpcodeRow.agrees (r r' : OpcodeRow) : Bool := r.pattern &&& r'.mask == r'.pattern &&& r.mask

theorem OpcodeRow.selects_iff (r : OpcodeRow) (w : Word) : r.selects w = true ↔ w &&& r.mask = r.pattern :=
  beq_iff_eq

/-- The rows of one word agree with each other. -/
theorem OpcodeRow.agrees_of_selects {r r' : OpcodeRow} (h : r.selects w = true) (h' : r'.selects w = true) :
    r.agrees r' = true := by
  rw [selects_iff] at h h'
  rw [agrees, beq_iff_eq, ← h, ← h', BitVec.and_assoc, BitVec.and_assoc, BitVec.and_comm r.mask]

theorem formRows_eq_of_agrees : ∀ r ∈ formRows, ∀ r' ∈ formRows, r.agrees r' = true → r = r' := by decide

theorem nopRows_eq_of_agrees : ∀ r ∈ nopRows, ∀ r' ∈ nopRows, r.agrees r' = true → r = r' := by decide

/-- Only the two whole words and the timer accesses are cut out of a set of unrecognised words (R67). -/
theorem form_mask_of_agrees_nop :
    ∀ r ∈ formRows, ∀ r' ∈ nopRows, r.agrees r' = true → r.mask = 0xFFFF#16 ∨ r.mask = 0xF0FF#16 := by decide

/-- Settles O4: the patterns of any two forms differ in a bit that both masks look at. -/
theorem instructionFormsExclusive : Obligations.InstructionFormsExclusive := by
  unfold Obligations.InstructionFormsExclusive
  exact fun w r hr r' hr' h h' => formRows_eq_of_agrees r hr r' hr' (OpcodeRow.agrees_of_selects h h')

/-- The row of the instruction a word decodes to selects that word. -/
theorem decoded_row_selects (w : Word) :
    ∃ r ∈ opcodeRows, r.order = (decodeWord w).rowOrder ∧ r.selects w = true := by
  have h := Laws.OwnRow.statement_all (decodeWord w)
  unfold Laws.OwnRow.Statement at h
  rwa [(encodeDecodeRoundTrip w).2] at h

section
variable {r : OpcodeRow}

theorem isNop_false_of_wholeWord_row (hr : r ∈ formRows) (hmask : r.mask = 0xFFFF#16) (hs : r.selects w = true) :
    (decodeWord w).isNop = false := by
  have hrows : ∀ r ∈ formRows, r.mask = 0xFFFF#16 → (decodeWord r.pattern).isNop = false := by decide
  have hw : w = r.pattern := by
    rw [← (r.selects_iff w).1 hs, hmask]
    exact BitVec.and_allOnes.symm
  exact hw ▸ hrows r hr hmask

theorem fieldOp_and_maskT (w : Word) : fieldOp (w &&& 0xF0FF#16) = fieldOp w := by
  conv_lhs => rw [← wordOfOpXKk_fields w, wordOfOpXKk_and_maskT, fieldOp_wordOfOpXKk]

theorem fieldKk_and_maskT (w : Word) : fieldKk (w &&& 0xF0FF#16) = fieldKk w := by
  conv_lhs => rw [← wordOfOpXKk_fields w, wordOfOpXKk_and_maskT, fieldKk_wordOfOpXKk]

theorem isNop_false_of_timer_row (hr : r ∈ formRows) (hmask : r.mask = 0xF0FF#16) (hs : r.selects w = true) :
    (decodeWord w).isNop = false := by
  have hrows : ∀ r ∈ formRows, r.mask = 0xF0FF#16 → fieldOp r.pattern = 0xF#4 ∧
      (fieldKk r.pattern = 0x07#8 ∨ fieldKk r.pattern = 0x15#8 ∨ fieldKk r.pattern = 0x18#8) := by decide
  obtain ⟨hop, hkk⟩ := hrows r hr hmask
  rw [← (r.selects_iff w).1 hs, hmask, fieldOp_and_maskT] at hop
  rw [← (r.selects_iff w).1 hs, hmask, fieldKk_and_maskT] at hkk
  rw [decodeWord_opF hop]
  rcases hkk with h | h | h <;> simp [decodeTimer, h, Instr.isNop, Instr.rowOrder]

/-- A word that a form's row selects is not decoded as unrecognised: where a set of unrecognised words covers it too, the
dispatch comes to the form first. -/
theorem isNop_false_of_form_selects (hr : r ∈ formRows) (hs : r.selects w = true) : (decodeWord w).isNop = false := by
  obtain ⟨r', hr', ho, hs'⟩ := decoded_row_selects w
  rcases List.mem_append.1 hr' with hform | hnop
  · have hrows : ∀ r ∈ formRows, ¬ 22 ≤ r.order := by decide
    exact decide_eq_false (ho ▸ hrows r' hform)
  · rcases form_mask_of_agrees_nop r hr r' hnop (OpcodeRow.agrees_of_selects hs hs') with hmask | hmask
    · exact isNop_false_of_wholeWord_row hr hmask hs
    · exact isNop_false_of_timer_row hr hmask hs

theorem find?_selects_of_unique {rows : List OpcodeRow} (hr : r ∈ rows) (hs : r.selects w = true)
    (hunique : ∀ r' ∈ rows, r'.selects w = true → r' = r) : rows.find? (·.selects w) = some r := by
  cases hfind : rows.find? (·.selects w) with
  | none => exact absurd hs (List.find?_eq_none.1 hfind r hr)
  | some r' =>
    have hs' : r'.selects w = true := List.find?_some (p := fun q : OpcodeRow => q.selects w) hfind
    rw [hunique r' (List.mem_of_find?_eq_some hfind) hs']

theorem find?_formRows_of_isNop (h : (decodeWord w).isNop = true) : formRows.find? (·.selects w) = none :=
  List.find?_eq_none.2 fun _ hr hs => Bool.false_ne_true ((isNop_false_of_form_selects hr hs).symm.trans h)

end

/-- Settles O3: the decoded instruction's own row selects the word, and no row before it does. -/
theorem decoderFollowsOpcodeTable : Obligations.DecoderFollowsOpcodeTable := by
  unfold Obligations.DecoderFollowsOpcodeTable
  intro w
  obtain ⟨r, hr, ho, hs⟩ := decoded_row_selects w
  have hfirst : opcodeRows.find? (·.selects w) = some r := by
    rw [opcodeRows, List.find?_append]
    rcases List.mem_append.1 hr with hform | hnop
    · rw [find?_selects_of_unique hform hs fun r' hr' hs' => instructionFormsExclusive w r' hr' r hform hs' hs,
        Option.some_or]
    · have hrows : ∀ r ∈ nopRows, 22 ≤ r.order := by decide
      have hisNop : (decodeWord w).isNop = true := decide_eq_true (ho ▸ hrows r hnop)
      rw [find?_formRows_of_isNop hisNop, Option.none_or]
      exact find?_selects_of_unique hnop hs fun r' hr' hs' =>
        nopRows_eq_of_agrees r' hr' r hnop (OpcodeRow.agrees_of_selects hs' hs)
  rw [rowOfWord, hfirst, ← ho, Option.map_some]

end Sys2Proof
end

section
/-! PROOFS. The control-transfer instructions and the self-jump (spec/40_control_flow.md R80 to R83). -/

namespace Sys2Proof.Machine

variable {s t : State}

/-! ### The self-jump (R81, R188) -/

/-- The low 12 bits of an address that exists are the whole address. -/
theorem zext16_setWidth_of_lt {a : Word} (h : a.toNat < 4096) : zext16 (a.setWidth 12) = a := by
  apply BitVec.eq_of_toNat_eq
  rw [zext16_toNat, BitVec.toNat_setWidth, Nat.mod_eq_of_lt h]

/-- Settles O11: the step runs the jump, whose target is the `PC` the step started at. -/
theorem selfJumpIsFinal : Obligations.SelfJumpIsFinal := by
  unfold Obligations.SelfJumpIsFinal
  rintro s _ rnd ⟨hup, rfl⟩ ⟨hfault, hpc, hdec⟩
  have htarget : zext16 (s.pc.setWidth 12) = s.taken.pc := by
    rw [zext16_setWidth_of_lt (by omega), taken_pc]
  rw [stepRunsDecodedInstruction s rnd _ hup hfault hpc hdec, exec_jp, execJp, htarget]
  rfl

/-! ### Jumps (R81, R83) -/

/-- Settles O23: the target is the zero-extended immediate. -/
theorem jpSetsPc : Obligations.JpSetsPc := by
  unfold Obligations.JpSetsPc
  exact ⟨fun _ hop => decodeWord_op1 hop,
    fun nnn s => ⟨_, exec_jp s nnn, zext16_toNat nnn, .setPc s [] (List.mem_singleton_self _) _⟩⟩

/-- Settles O25: the sum of 12 bits and 8 bits does not wrap in 16. -/
theorem jpV0AddsRegisterZero : Obligations.JpV0AddsRegisterZero := by
  unfold Obligations.JpV0AddsRegisterZero
  exact ⟨fun _ hop => decodeWord_opB hop,
    fun nnn s => ⟨_, exec_jpV0 s nnn, offsetTarget_toNat s nnn, .setPc s [] (List.mem_singleton_self _) _⟩⟩

/-! ### Calls and returns (R80, R82) -/

/-- A fault leaves `SP` as it was, so an instruction that moved it took none and changed only what is listed for it. -/
theorem exec_frame_of_sp_ne {i : Instr} (h : exec i s = .next t) (hsp : t.sp.val ≠ s.sp.val) :
    OnlyChanged (regsWritten i) (partsWritten i) s t := by
  rcases exec_frame h with hf | ⟨c, rfl⟩
  · exact hf
  · exact absurd rfl hsp

/-- Settles O24: by the room on the stack. -/
theorem callPushesPc : Obligations.CallPushesPc := by
  unfold Obligations.CallPushesPc
  refine ⟨fun _ hop => decodeWord_op2 hop, fun nnn s hroom => ?room, fun nnn s hfull => ?full⟩
  case room =>
    have hcall := exec_call_of_room nnn hroom
    refine ⟨_, hcall, zext16_toNat nnn, rfl, ?_, fun k hk => ?_,
      exec_frame_of_sp_ne hcall (Nat.succ_ne_self s.sp.val)⟩
    · exact Vector.getElem?_set_self hroom
    · exact Vector.getElem?_set_ne hroom hk.symm
  case full =>
    exact ⟨_, exec_call_of_full nnn hfull, rfl, rfl, .raise_beforeFetch s _⟩

/-- A return after a call that had room gives back the `PC` and `SP` from before the call (R80, R82). -/
theorem exec_ret_after_call {nnn : Addr} (hroom : s.sp.val < 16) (h : exec (.call nnn) s = .next t) :
    ∃ u, exec .ret t = .next u ∧ u.pc = s.pc ∧ u.sp = s.sp := by
  rw [exec_call_of_room nnn hroom] at h
  cases h
  exact ⟨_, exec_ret_of_pos (Nat.succ_pos s.sp.val), Vector.getElem_set_self hroom, rfl⟩

/-- Settles O22: by the entries on the stack, and for the round trip by what the call left there. -/
theorem retPopsReturnAddress : Obligations.RetPopsReturnAddress := by
  unfold Obligations.RetPopsReturnAddress
  refine ⟨rfl, fun s hpos => ?pop, fun s hempty => ?empty, fun s t nnn => exec_ret_after_call⟩
  case pop =>
    have hret := exec_ret_of_pos hpos
    exact ⟨_, hret, Vector.getElem?_eq_getElem _, rfl,
      exec_frame_of_sp_ne hret (Nat.sub_one_lt_of_lt hpos).ne⟩
  case empty =>
    exact ⟨_, exec_ret_of_empty hempty, rfl, rfl, .raise_beforeFetch s _⟩

end Sys2Proof.Machine
end

section
/-! PROOFS. The immediate, index and random instructions (spec/41_immediate_index_random.md R90 to R93). -/

namespace Sys2Proof.Machine

variable {s : State}

theorem getV_setV_same (s : State) (r : Nibble) (b : Byte) : (s.setV r b).getV r = b := by
  rw [getV_setV, if_pos rfl]

/-! ### Immediates into registers and `I` (R90 to R92) -/

/-- Settles O26: `kk` as it is, in any register. -/
theorem ldImmediate : Obligations.LdImmediate := by
  unfold Obligations.LdImmediate
  exact ⟨fun _ hop => decodeWord_op6 hop,
    fun x kk s => ⟨_, exec_ldVxKk s x kk, getV_setV_same s x kk, .setV s (List.mem_singleton_self x) _ _⟩⟩

/-- Settles O27: the sum of two bytes is the natural sum modulo 256. -/
theorem addImmediateWrapsNoFlag : Obligations.AddImmediateWrapsNoFlag := by
  unfold Obligations.AddImmediateWrapsNoFlag
  refine ⟨fun _ hop => decodeWord_op7 hop,
    fun x kk s => ⟨_, exec_addVxKk s x kk, ?sum, .setV s (List.mem_singleton_self x) _ _⟩⟩
  case sum => rw [getV_setV_same, BitVec.toNat_add]

/-- Settles O28: `I` is the zero-extended immediate. -/
theorem ldIndex : Obligations.LdIndex := by
  unfold Obligations.LdIndex
  exact ⟨fun _ hop => decodeWord_opA hop,
    fun nnn s => ⟨_, exec_ldI s nnn, zext16_toNat nnn, .setIndex s [] (List.mem_singleton_self _) _⟩⟩

/-! ### Random bytes under a mask (R27, R93) -/

theorem draw8_of_supplied {b : Byte} (h : s.rnd = some b) : s.draw8 = b := by
  rw [State.draw8, h]

theorem draw8_of_open (h : s.rnd = none) : s.draw8 = Config.randomByte s.draws := by
  rw [State.draw8, h]

/-- A masked byte has no bit outside its mask. -/
theorem and_mask_and_not_mask (b kk : Byte) : (b &&& kk) &&& ~~~kk = 0#8 := by
  rw [BitVec.and_assoc, BitVec.and_not_self]
  exact BitVec.and_zero

/-- An `RND` counts its draw and writes one register (R93; log 3). -/
theorem OnlyChanged.drawn_setV (s : State) (x : Nibble) (b : Byte) : OnlyChanged [x] [.draws] s (s.drawn.setV x b) :=
  .trans (.drawn s _ (List.mem_singleton_self _)) (.setV _ (List.mem_singleton_self x) _ b)

/-- Settles O29: `V[x]` is the masked draw, by where the byte of the draw comes from. -/
theorem rndMasksDraw : Obligations.RndMasksDraw := by
  unfold Obligations.RndMasksDraw
  refine ⟨fun _ hop => decodeWord_opC hop, fun x kk s => ?_⟩
  have hV : (s.drawn.setV x (s.draw8 &&& kk)).getV x = s.draw8 &&& kk := getV_setV_same _ x _
  refine ⟨_, exec_rnd s x kk, fun b hb => ?supplied, fun hnone => ?free, ?mask, rfl, .drawn_setV s x _⟩
  case supplied => rw [hV, draw8_of_supplied hb]
  case free => rw [hV, draw8_of_open hnone]
  case mask => rw [hV, and_mask_and_not_mask]

end Sys2Proof.Machine
end

section
/-! PROOFS. The register-register instructions (spec/42_alu.md R100 to R110). -/

namespace Sys2Proof.Machine

variable {s t : State} {x y : Nibble} {w : Word}

/-- A word with `op = 8` is decoded by its `fn` (R64, R66). -/
theorem decodeWord_of_alu {i : Instr} {fn : Nibble} (hop : fieldOp w = 0x8#4) (hfn : fieldN w = fn)
    (hwf : i.wf = true) (hi : encode i = wordOfNibbles 0x8#4 (fieldX w) (fieldY w) fn) : decodeWord w = i :=
  decodeWord_eq_of_encode hwf (hi.trans (wordOfNibbles_of_op hop hfn))

/-! ### One register written, no flag (R100 to R103) -/

theorem getV_setV_and_frame (s : State) (x : Nibble) (b : Byte) :
    (s.setV x b).getV x = b ∧ OnlyChanged [x] [] s (s.setV x b) :=
  ⟨getV_setV_same s x b, .setV s (List.mem_singleton_self x) [] b⟩

/-- Settles O30: the one write is of `V[y]`. -/
theorem ldRegister : Obligations.LdRegister := by
  unfold Obligations.LdRegister
  exact ⟨fun _ hop hfn => decodeWord_of_alu hop hfn rfl rfl,
    fun x y s => ⟨_, exec_ldVxVy s x y, getV_setV_and_frame s x _⟩⟩

/-- Settles O31: the one write is of the bitwise result. -/
theorem logicNoFlag : Obligations.LogicNoFlag := by
  unfold Obligations.LogicNoFlag
  refine ⟨fun _ hop => ⟨fun hfn => ?_, fun hfn => ?_, fun hfn => ?_⟩, fun x y s => ⟨?or, ?and, ?xor⟩⟩
  case or => exact ⟨_, exec_orVxVy s x y, getV_setV_and_frame s x _⟩
  case and => exact ⟨_, exec_andVxVy s x y, getV_setV_and_frame s x _⟩
  case xor => exact ⟨_, exec_xorVxVy s x y, getV_setV_and_frame s x _⟩
  all_goals exact decodeWord_of_alu hop hfn rfl rfl

/-! ### The flags in numbers (R11, R104 to R107) -/

theorem flagByte_decide (p : Prop) [Decidable p] : flagByte (decide p) = if p then 1#8 else 0#8 := by
  unfold flagByte
  simp only [decide_eq_true_eq]

theorem flagByte_toNat (b : Bool) : (flagByte b).toNat = b.toNat := by cases b <;> rfl

theorem shiftedOutLow_toNat (b : Byte) : (shiftedOutLow b).toNat = b.toNat % 2 := by
  rw [shiftedOutLow, flagByte_toNat, BitVec.getLsbD, Nat.toNat_testBit, Nat.pow_zero, Nat.div_one]

theorem shiftedOutHigh_toNat (b : Byte) : (shiftedOutHigh b).toNat = b.toNat / 128 := by
  rw [shiftedOutHigh, flagByte_toNat, BitVec.getLsbD, Nat.toNat_testBit]
  have := b.isLt
  omega

/-! ### A shift by one in numbers (R106, R107) -/

theorem shiftRight_one_toNat (b : Byte) : (b >>> 1).toNat = b.toNat / 2 := by
  rw [BitVec.toNat_ushiftRight, Nat.shiftRight_eq_div_pow, Nat.pow_one]

theorem shiftLeft_one_toNat (b : Byte) : (b <<< 1).toNat = 2 * b.toNat % 256 := by
  rw [BitVec.toNat_shiftLeft, Nat.shiftLeft_eq, Nat.pow_one, Nat.mul_comm]

/-- The difference of two bytes, by the borrow (R105). -/
theorem sub_toNat (a b : Byte) :
    (a - b).toNat = if a.toNat < b.toNat then a.toNat + 256 - b.toNat else a.toNat - b.toNat := by
  split_ifs with hborrow
  · rw [BitVec.toNat_sub_of_lt hborrow]
    omega
  · exact BitVec.toNat_sub_of_le (Nat.le_of_not_lt hborrow)

/-! ### A result and a flag written, in the order of the rule (R104 to R107) -/

theorem OnlyChanged.setV_setV (s : State) {rs : List Nibble} {r q : Nibble} (hr : r ∈ rs) (hq : q ∈ rs) (b c : Byte) :
    OnlyChanged rs [] s ((s.setV r b).setV q c) :=
  .trans (.setV s hr [] b) (.setV _ hq [] c)

/-- `ADD` and `SUB` write the flag first: it stands unless the result went to register 15. -/
theorem getV_flag_then_result (hx : x ≠ flagReg) (f b : Byte) : ((s.setV flagReg f).setV x b).getV flagReg = f := by
  rw [getV_setV_of_ne hx, getV_setV_same]

/-- `SHR` and `SHL` write the flag last: the result stands unless it went to register 15. -/
theorem getV_result_then_flag (hx : x ≠ flagReg) (f b : Byte) : ((s.setV x b).setV flagReg f).getV x = b := by
  rw [getV_setV_of_ne hx.symm, getV_setV_same]

theorem exec_addVxVy_result (h : exec (.addVxVy x y) s = .next t) :
    (t.getV x).toNat = ((s.getV x).toNat + (s.getV y).toNat) % 256 := by
  cases h
  rw [getV_setV_same, BitVec.toNat_add]

theorem exec_addVxVy_flag (hx : x ≠ flagReg) (h : exec (.addVxVy x y) s = .next t) :
    t.getV flagReg = if 255 < (s.getV x).toNat + (s.getV y).toNat then 1#8 else 0#8 := by
  cases h
  exact (getV_flag_then_result hx _ _).trans (flagByte_decide _)

theorem exec_subVxVy_result (h : exec (.subVxVy x y) s = .next t) : t.getV x = s.getV x - s.getV y := by
  cases h
  exact getV_setV_same _ x _

theorem exec_subVxVy_flag (hx : x ≠ flagReg) (h : exec (.subVxVy x y) s = .next t) :
    t.getV flagReg = if (s.getV y).toNat ≤ (s.getV x).toNat then 1#8 else 0#8 := by
  cases h
  exact (getV_flag_then_result hx _ _).trans (flagByte_decide _)

/-- The copy of `V[y]` to `V[x]` is overwritten by the shifted value. -/
theorem exec_shrVxVy_writes (s : State) (x y : Nibble) : exec (.shrVxVy x y) s =
    .next ((s.setV x (s.getV y >>> 1)).setV flagReg (shiftedOutLow (s.getV y))) := by
  rw [exec_shrVxVy, execShrVxVy, setV_setV_same]

/-- As for `SHR`, the copy is overwritten. -/
theorem exec_shlVxVy_writes (s : State) (x y : Nibble) : exec (.shlVxVy x y) s =
    .next ((s.setV x (s.getV y <<< 1)).setV flagReg (shiftedOutHigh (s.getV y))) := by
  rw [exec_shlVxVy, execShlVxVy, setV_setV_same]

theorem exec_shrVxVy_result (hx : x ≠ flagReg) (h : exec (.shrVxVy x y) s = .next t) :
    (t.getV x).toNat = (s.getV y).toNat / 2 := by
  cases (exec_shrVxVy_writes s x y).symm.trans h
  rw [getV_result_then_flag hx, shiftRight_one_toNat]

theorem exec_shrVxVy_flag (h : exec (.shrVxVy x y) s = .next t) :
    (t.getV flagReg).toNat = (s.getV y).toNat % 2 := by
  cases h
  rw [getV_setV_same, shiftedOutLow_toNat]

theorem exec_shlVxVy_result (hx : x ≠ flagReg) (h : exec (.shlVxVy x y) s = .next t) :
    (t.getV x).toNat = 2 * (s.getV y).toNat % 256 := by
  cases (exec_shlVxVy_writes s x y).symm.trans h
  rw [getV_result_then_flag hx, shiftLeft_one_toNat]

theorem exec_shlVxVy_flag (h : exec (.shlVxVy x y) s = .next t) :
    (t.getV flagReg).toNat = (s.getV y).toNat / 128 := by
  cases h
  rw [getV_setV_same, shiftedOutHigh_toNat]

theorem mem_result_flag (x : Nibble) : x ∈ [x, flagReg] ∧ flagReg ∈ [x, flagReg] :=
  ⟨List.mem_cons_self, List.mem_cons_of_mem x (List.mem_singleton_self _)⟩

/-- Settles O32: the carry is written before the sum. -/
theorem addCarriesOut : Obligations.AddCarriesOut := by
  unfold Obligations.AddCarriesOut
  refine ⟨fun _ hop hfn => decodeWord_of_alu hop hfn rfl rfl, fun x y s => ?_⟩
  have h := exec_addVxVy s x y
  obtain ⟨hxm, hfm⟩ := mem_result_flag x
  exact ⟨_, h, exec_addVxVy_result h, fun hx => exec_addVxVy_flag hx h, .setV_setV s hfm hxm _ _⟩

/-- Settles O33: not-borrow is written before the difference. -/
theorem subNotBorrow : Obligations.SubNotBorrow := by
  unfold Obligations.SubNotBorrow
  refine ⟨fun _ hop hfn => decodeWord_of_alu hop hfn rfl rfl, fun x y s => ?_⟩
  have h := exec_subVxVy s x y
  obtain ⟨hxm, hfm⟩ := mem_result_flag x
  refine ⟨_, h, ?difference, fun hx => exec_subVxVy_flag hx h, .setV_setV s hfm hxm _ _⟩
  case difference => rw [exec_subVxVy_result h, sub_toNat]

/-- Settles O34: the bit shifted out is written after the half. -/
theorem shrCopiesAndShifts : Obligations.ShrCopiesAndShifts := by
  unfold Obligations.ShrCopiesAndShifts
  refine ⟨fun _ hop hfn => decodeWord_of_alu hop hfn rfl rfl, fun x y s => ?_⟩
  have h := exec_shrVxVy_writes s x y
  obtain ⟨hxm, hfm⟩ := mem_result_flag x
  exact ⟨_, h, exec_shrVxVy_flag h, fun hx => exec_shrVxVy_result hx h, .setV_setV s hxm hfm _ _⟩

/-- Settles O35: the bit shifted out is written after the double. -/
theorem shlCopiesAndShifts : Obligations.ShlCopiesAndShifts := by
  unfold Obligations.ShlCopiesAndShifts
  refine ⟨fun _ hop hfn => decodeWord_of_alu hop hfn rfl rfl, fun x y s => ?_⟩
  have h := exec_shlVxVy_writes s x y
  obtain ⟨hxm, hfm⟩ := mem_result_flag x
  exact ⟨_, h, exec_shlVxVy_flag h, fun hx => exec_shlVxVy_result hx h, .setV_setV s hxm hfm _ _⟩

/-! ### Register 15 as an operand (R110) -/

/-- Settles O36: with `x = 15` the last write decides, and with `y = 15` the operands are those read before any write. -/
theorem flagRegisterAsOperand : Obligations.FlagRegisterAsOperand := by
  unfold Obligations.FlagRegisterAsOperand
  intro s t y
  refine ⟨exec_addVxVy_result, exec_subVxVy_result, exec_shrVxVy_flag, exec_shlVxVy_flag,
    fun x hx => ⟨fun h => ?add, fun h => ?sub, fun h => ?shr, fun h => ?shl⟩⟩
  case add => exact ⟨exec_addVxVy_result h, exec_addVxVy_flag hx h⟩
  case sub => exact ⟨exec_subVxVy_result h, exec_subVxVy_flag hx h⟩
  case shr => exact ⟨exec_shrVxVy_result hx h, exec_shrVxVy_flag h⟩
  case shl => exact ⟨exec_shlVxVy_result hx h, exec_shlVxVy_flag h⟩

end Sys2Proof.Machine
end

section
/-! PROOFS. The display instructions and the pixel engine (spec/43_display.md R120 to R122). -/

namespace Sys2Proof.Machine

variable {s t : State} {x y n : Nibble} {x0 y0 rows : Nat}

/-- Settles O37: the display written is the blank one. -/
theorem clsTurnsAllOff : Obligations.ClsTurnsAllOff := by
  unfold Obligations.ClsTurnsAllOff
  exact ⟨rfl, fun s => ⟨_, exec_cls s, fun u w _ _ => get_blank u w, .setFb s [] (List.mem_singleton_self _) _⟩⟩

/-! ### The place of a sprite in numbers (R121) -/

theorem startColumn_eq_mod (s : State) (x : Nibble) : s.startColumn x = (s.getV x).toNat % 64 := by
  rw [State.startColumn, BitVec.toNat_and]
  exact Nat.and_two_pow_sub_one_eq_mod _ 6

theorem startRow_eq_mod (s : State) (y : Nibble) : s.startRow y = (s.getV y).toNat % 32 := by
  rw [State.startRow, BitVec.toNat_and]
  exact Nat.and_two_pow_sub_one_eq_mod _ 5

theorem drawnRows_eq_min (s : State) (y n : Nibble) :
    s.drawnRows y n = min n.toNat (32 - (s.getV y).toNat % 32) := by
  rw [State.drawnRows, startRow_eq_mod]

theorem startRow_add_drawnRows_le (s : State) (y n : Nibble) : s.startRow y + s.drawnRows y n ≤ 32 := by
  have := startRow_lt s y
  unfold State.drawnRows
  omega

/-- No row of the draw lies outside memory, in numbers (R121). -/
theorem spriteOutside_eq_false_iff (s : State) (y n : Nibble) : s.spriteOutside y n = false ↔
    s.drawnRows y n = 0 ∨ s.index.toNat + s.drawnRows y n - 1 ≤ 0x0FFF := by
  rw [Bool.eq_false_iff, ne_eq, spriteOutside_iff]
  omega

/-! ### The whole sprite, row by row (R121, R122) -/

/-- The sprite bit that falls on the cell of column `u`, row `w`: 0 outside the window of 8 columns and `rows` rows. -/
def State.spriteBit (s : State) (x0 y0 rows u w : Nat) : Bool :=
  decide (x0 ≤ u ∧ u ≤ x0 + 7 ∧ y0 ≤ w ∧ w < y0 + rows) &&
    (s.memRead (s.index.toNat + (w - y0))).getLsbD (7 - (u - x0))

theorem spriteBit_of_not_mem {u w : Nat} (h : ¬ (y0 ≤ w ∧ w < y0 + rows)) : s.spriteBit x0 y0 rows u w = false := by
  have hout : ¬ (x0 ≤ u ∧ u ≤ x0 + 7 ∧ y0 ≤ w ∧ w < y0 + rows) := fun ⟨_, _, hw⟩ => h hw
  rw [State.spriteBit, decide_eq_false hout, Bool.false_and]

/-- One more row of the sprite adds its bits in that row of the display, as `drawRow_get` has them. -/
theorem spriteBit_succ (s : State) (x0 y0 rows w : Nat) {u : Nat} (hu : u < 64) :
    s.spriteBit x0 y0 (rows + 1) u w = (s.spriteBit x0 y0 rows u w ^^
      (decide (x0 ≤ u ∧ u < x0 + 8 ∧ w = y0 + rows ∧ u < 64) && (s.spriteByte rows).getLsbD (7 - (u - x0)))) := by
  by_cases hw : w = y0 + rows
  · have hcols : (x0 ≤ u ∧ u ≤ x0 + 7 ∧ y0 ≤ w ∧ w < y0 + (rows + 1)) ↔
        (x0 ≤ u ∧ u < x0 + 8 ∧ w = y0 + rows ∧ u < 64) := by omega
    have hrow : w - y0 = rows := by omega
    have habove : s.spriteBit x0 y0 rows u w = false := spriteBit_of_not_mem (by omega)
    rw [habove, Bool.false_xor, State.spriteBit, decide_eq_decide.2 hcols, hrow,
      State.spriteByte]
  · have hrows : (x0 ≤ u ∧ u ≤ x0 + 7 ∧ y0 ≤ w ∧ w < y0 + (rows + 1)) ↔
        (x0 ≤ u ∧ u ≤ x0 + 7 ∧ y0 ≤ w ∧ w < y0 + rows) := by omega
    have hother : ¬ (x0 ≤ u ∧ u < x0 + 8 ∧ w = y0 + rows ∧ u < 64) := fun ⟨_, _, e, _⟩ => hw e
    rw [State.spriteBit, decide_eq_decide.2 hrows, decide_eq_false hother, Bool.false_and, Bool.xor_false,
      State.spriteBit]

theorem drawSprite_succ (s : State) (x0 y0 rows : Nat) : s.drawSprite x0 y0 (rows + 1) =
    drawRow (s.spriteByte rows) x0 (y0 + rows) (s.drawSprite x0 y0 rows) := by
  rw [State.drawSprite, List.range_succ, List.foldl_append, List.foldl_cons, List.foldl_nil, State.drawSprite]

/-- Drawing a sprite whose rows are on the display is an exclusive OR with its bits, cell by cell (R122). -/
theorem drawSprite_get (s : State) (x0 : Nat) (hrows : y0 + rows ≤ 32) {u : Nat} (hu : u < 64) (w : Nat) :
    Framebuffer.get (s.drawSprite x0 y0 rows).1 u w = (s.pixel u w ^^ s.spriteBit x0 y0 rows u w) := by
  induction rows with
  | zero =>
    rw [spriteBit_of_not_mem (by omega), Bool.xor_false]
    rfl
  | succ rows ih =>
    rw [drawSprite_succ, drawRow_get _ _ _ (by omega), ih (by omega), spriteBit_succ s x0 y0 rows w hu, Bool.xor_assoc]

/-- A sprite whose rows are on the display reports a collision exactly when one of its bits on the display is 1 over a
pixel that was on: no row changes the cells of a later one (R122). -/
theorem drawSprite_hit (s : State) (x0 : Nat) (hrows : y0 + rows ≤ 32) :
    (s.drawSprite x0 y0 rows).2 = true ↔
      ∃ r c, r < rows ∧ c < 8 ∧ x0 + c < 64 ∧ (s.spriteByte r).getLsbD (7 - c) = true ∧
        s.pixel (x0 + c) (y0 + r) = true := by
  induction rows with
  | zero => exact ⟨fun h => absurd h Bool.false_ne_true, fun ⟨_, _, h, _⟩ => absurd h (Nat.not_lt_zero _)⟩
  | succ rows ih =>
    have hcell : ∀ u, u < 64 →
        Framebuffer.get (s.drawSprite x0 y0 rows).1 u (y0 + rows) = s.pixel u (y0 + rows) := fun u hu => by
      rw [drawSprite_get s x0 (by omega) hu, spriteBit_of_not_mem (by omega), Bool.xor_false]
    rw [drawSprite_succ, drawRow_hit _ _ _ (by omega), ih (by omega)]
    constructor
    · rintro (⟨r, c, hr, hit⟩ | ⟨c, hc, hx, hbit, hon⟩)
      · exact ⟨r, c, by omega, hit⟩
      · exact ⟨rows, c, by omega, hc, hx, hbit, hcell _ hx ▸ hon⟩
    · rintro ⟨r, c, hr, hc, hx, hbit, hon⟩
      rcases Nat.lt_succ_iff_lt_or_eq.1 hr with hlt | rfl
      · exact .inl ⟨r, c, hlt, hc, hx, hbit, hon⟩
      · exact .inr ⟨c, hc, hx, hbit, (hcell _ hx).trans hon⟩

/-! ### A draw as a whole (R121) -/

/-- The state after a draw that raises no fault, with the sprite at column `x0`, row `y0`, of `rows` rows. -/
def State.afterDrw (s : State) (x0 y0 rows : Nat) : State :=
  (s.setFb (s.drawSprite x0 y0 rows).1).setV flagReg (flagByte (s.drawSprite x0 y0 rows).2)

/-- A draw that reads no row above 0xFFF, in the numbers of the rule. -/
theorem exec_drw_eq_afterDrw (hx0 : x0 = (s.getV x).toNat % 64) (hy0 : y0 = (s.getV y).toNat % 32)
    (hrows : rows = min n.toNat (32 - y0)) (hin : rows = 0 ∨ s.index.toNat + rows - 1 ≤ 0x0FFF) :
    exec (.drw x y n) s = .next (s.afterDrw x0 y0 rows) ∧ y0 + rows ≤ 32 := by
  rw [hy0, ← drawnRows_eq_min] at hrows
  rw [← startColumn_eq_mod] at hx0
  rw [← startRow_eq_mod] at hy0
  subst hx0 hy0 hrows
  exact ⟨exec_drw_of_inside ((spriteOutside_eq_false_iff s y n).2 hin), startRow_add_drawnRows_le s y n⟩

theorem afterDrw_pixel (s : State) (x0 : Nat) (hrows : y0 + rows ≤ 32) {u : Nat} (hu : u < 64) (w : Nat) :
    (s.afterDrw x0 y0 rows).pixel u w = (s.pixel u w ^^ s.spriteBit x0 y0 rows u w) :=
  drawSprite_get s x0 hrows hu w

theorem afterDrw_flag (s : State) (x0 y0 rows : Nat) :
    (s.afterDrw x0 y0 rows).getV flagReg = flagByte (s.drawSprite x0 y0 rows).2 :=
  getV_setV_same _ flagReg _

theorem OnlyChanged.afterDrw (s : State) (x0 y0 rows : Nat) :
    OnlyChanged [flagReg] [.display] s (s.afterDrw x0 y0 rows) :=
  .trans (.setFb s _ (List.mem_singleton_self _) _) (.setV _ (List.mem_singleton_self _) _ _)

theorem flagByte_eq_one_iff (b : Bool) : flagByte b = 1#8 ↔ b = true := by cases b <;> decide

/-- Settles O38: each cell is the exclusive OR of its old value and the sprite bit on it. -/
theorem drwXorsSprite : Obligations.DrwXorsSprite := by
  unfold Obligations.DrwXorsSprite
  refine ⟨fun _ hop => decodeWord_opD hop, fun x y n s x0 y0 rows hx0 hy0 hrows hin => ?_⟩
  obtain ⟨hexec, hdisplay⟩ := exec_drw_eq_afterDrw hx0 hy0 hrows hin
  exact ⟨_, hexec, fun u w hu _ => afterDrw_pixel s x0 hdisplay hu w, .afterDrw s x0 y0 rows⟩

/-- Settles O39: `VF` is the flag of the collisions of the whole sprite. -/
theorem drwReportsCollision : Obligations.DrwReportsCollision := by
  unfold Obligations.DrwReportsCollision
  intro x y n s x0 y0 rows hx0 hy0 hrows hin
  obtain ⟨hexec, hdisplay⟩ := exec_drw_eq_afterDrw hx0 hy0 hrows hin
  refine ⟨_, hexec, ?_⟩
  rw [afterDrw_flag]
  exact ⟨flagByte_cases _, (flagByte_eq_one_iff _).trans (drawSprite_hit s x0 hdisplay)⟩

/-- Settles O40: the bounds check comes before any write. -/
theorem drwOutsideMemoryFaults : Obligations.DrwOutsideMemoryFaults := by
  unfold Obligations.DrwOutsideMemoryFaults
  intro x y n s rows hrows hpos hout
  rw [← drawnRows_eq_min] at hrows
  subst hrows
  have houtside := (spriteOutside_iff s y n).2 ⟨hpos, hout⟩
  exact ⟨_, exec_drw_of_outside houtside, rfl, rfl, .raise_beforeFetch s _⟩

/-! ### The same draw again (R122 (5)) -/

/-- A draw leaves memory and `I`, so a second draw at the same place has the same bits and turns every cell back. -/
theorem afterDrw_afterDrw_fb (s : State) (x0 : Nat) (hrows : y0 + rows ≤ 32) :
    ((s.afterDrw x0 y0 rows).afterDrw x0 y0 rows).fb = s.fb := by
  refine framebuffer_ext fun u w hu _ => ?_
  have hbits : (s.afterDrw x0 y0 rows).spriteBit x0 y0 rows u w = s.spriteBit x0 y0 rows u w := rfl
  calc ((s.afterDrw x0 y0 rows).afterDrw x0 y0 rows).pixel u w
      = ((s.pixel u w ^^ s.spriteBit x0 y0 rows u w) ^^ s.spriteBit x0 y0 rows u w) := by
        rw [afterDrw_pixel _ x0 hrows hu, afterDrw_pixel s x0 hrows hu, hbits]
    _ = s.pixel u w := by rw [Bool.xor_assoc, Bool.xor_self, Bool.xor_false]

/-- Settles O41: the second draw reads the same rows, so it raises no fault, and its bits undo those of the first. -/
theorem drwTwiceRestoresDisplay : Obligations.DrwTwiceRestoresDisplay := by
  unfold Obligations.DrwTwiceRestoresDisplay
  intro x y n s t hs h ht hx hy
  rcases exec_drw_cases s x y n with ⟨hinside, e⟩ | ⟨_, e⟩ <;> rw [e] at h <;> cases h
  case inl =>
    have hcol := startColumn_eq_mod s x
    have hrow := startRow_eq_mod s y
    have hin := (spriteOutside_eq_false_iff s y n).1 hinside
    obtain ⟨hagain, hdisplay⟩ := exec_drw_eq_afterDrw (s := s.afterDrw _ _ _) (hcol.trans hx.symm)
      (hrow.trans hy.symm) rfl hin
    exact ⟨_, hagain, hs, afterDrw_afterDrw_fb s _ hdisplay⟩
  case inr => exact absurd ht (raise_fault_ne_zero _ _)

end Sys2Proof.Machine
end

section
/-! PROOFS. The timer accesses (spec/44_timer_access.md R130 to R132) and what a row of sound ticks emits
(spec/60_exceptions.md R161, R163). -/

namespace Sys2Proof.Machine

variable {s : State}

/-- Settles O42: the three words are the encodings of the accesses, and each access is one update of the state. -/
theorem timerAccesses : Obligations.TimerAccesses := by
  unfold Obligations.TimerAccesses
  refine ⟨fun w hop => ⟨?_, ?_, ?_⟩, fun x s => ⟨?fromDt, ?toDt, ?toSt⟩⟩
  iterate 3 exact fun hkk => decodeWord_eq_of_encode rfl (wordOfOpXKk_of_op hop hkk)
  case fromDt => exact ⟨_, exec_ldVxDt s x, getV_setV_same s x _, .setV s (List.mem_singleton_self x) _ _⟩
  case toDt => exact ⟨_, exec_ldDtVx s x, rfl, .setDt s [] (List.mem_singleton_self _) _⟩
  case toSt => exact ⟨_, exec_ldStVx s x, rfl, .setSt s [] (List.mem_singleton_self _) _⟩

/-! ### One sound tick in numbers (R161) -/

theorem soundTick_st_toNat (s : State) : s.soundTick.st.toNat = s.st.toNat - 1 := by
  have := s.st.isLt
  rcases soundTick_cases s with ⟨_, e⟩ | ⟨h0, e⟩ <;> rw [e]
  · rw [setSt_st, BitVec.toNat_ofNat, Nat.mod_eq_of_lt (by omega)]
  · omega

theorem soundTick_outputs (s : State) :
    s.soundTick.outputs = s.outputs ++ (if 0 < s.st.toNat then [.tone] else []) := by
  rcases soundTick_cases s with ⟨hpos, e⟩ | ⟨h0, e⟩ <;> rw [e]
  · rw [if_pos hpos, setSt_outputs, emit_outputs]
  · rw [h0, if_neg (lt_irrefl 0), List.append_nil]

/-- A step whose event is a sound tick ticks the state with the event taken, halted or not (R26, R161, R165). -/
theorem step_soundTick (h : s.eventAt 0 = .soundTick) : step s = .next s.taken.soundTick :=
  step_of_event ((eventAt_zero s).symm.trans h)

/-! ### Sound ticks in a row (R163) -/

/-- The tone of a first tick that finds `k`, then those of `m` more ticks. -/
theorem tone_append_replicate (k m : Nat) :
    (if 0 < k then [Output.tone] else []) ++ List.replicate (min m (k - 1)) .tone =
      List.replicate (min (m + 1) k) .tone := by
  cases k with
  | zero => simp
  | succ k =>
    rw [if_pos k.succ_pos, Nat.add_sub_cancel, Nat.add_min_add_right, List.replicate_succ, List.singleton_append]

/-- Settles O45, by induction on the number of ticks: the first tick emits a tone when it finds `ST` above 0, and the rest
of the history is sound ticks from the `ST` it left. -/
theorem soundTicksEmitAtMostSt : Obligations.SoundTicksEmitAtMostSt := by
  unfold Obligations.SoundTicksEmitAtMostSt
  intro m
  induction m with
  | zero => exact fun s _ => ⟨s, rfl, rfl, by rw [Nat.zero_min, List.replicate_zero, List.append_nil],
      fun j => by rw [Nat.zero_add]⟩
  | succ m ih =>
    intro s hticks
    have hu := step_soundTick (hticks 0 m.succ_pos)
    obtain ⟨t, ht, hst, hout, hahead⟩ := ih s.taken.soundTick fun j hj =>
      (step_eventAt hu j).trans (hticks (j + 1) (Nat.succ_lt_succ hj))
    rw [soundTick_st_toNat, taken_st] at hst hout
    rw [soundTick_outputs, taken_st, taken_outputs, List.append_assoc, tone_append_replicate] at hout
    refine ⟨t, (steps_succ hu).trans ht, ?_, hout, fun j => ?_⟩
    · rw [hst, Nat.sub_sub, Nat.add_comm]
    · rw [hahead j, step_eventAt hu, Nat.add_right_comm]

end Sys2Proof.Machine
end

section
/-! PROOFS. The unrecognised words (spec/30_encoding.md R67, spec/45_unrecognised.md R140). -/

namespace Sys2Proof

/-- The no-operations are the meanings of the words that no form selects: the row that selects a word is a form or one of
the sets of R67. -/
theorem isNop_iff_no_form_selects (w : Word) :
    (decodeWord w).isNop = true ↔ ∀ r ∈ formRows, r.selects w = false := by
  constructor
  · intro hisNop r hr
    by_contra hs
    have hform := isNop_false_of_form_selects hr (Bool.eq_true_of_not_eq_false hs)
    exact Bool.false_ne_true (hform.symm.trans hisNop)
  · intro hnone
    obtain ⟨r, hr, ho, hs⟩ := decoded_row_selects w
    rcases List.mem_append.1 hr with hform | hnop
    · exact absurd ((hnone r hform).symm.trans hs) Bool.false_ne_true
    · have hrows : ∀ r ∈ nopRows, 22 ≤ r.order := by decide
      exact decide_eq_true (ho ▸ hrows r hnop)

end Sys2Proof

namespace Sys2Proof.Machine

/-- A no-operation changes nothing (R140). -/
theorem exec_of_isNop {i : Instr} (s : State) (h : i.isNop = true) : exec i s = .next s := by
  cases i
  case nop0 | nop3 | nop4 | nop5 | nop9 | nopE | nopF => rfl
  case nop8x7 | nop8x8 | nop8x9 | nop8xA | nop8xB | nop8xC | nop8xD | nop8xF => rfl
  all_goals exact absurd h Bool.false_ne_true

/-- Settles O48: the words by the rows of the table, and the step by the execute phase of a no-operation. -/
theorem unrecognisedWordsDoNothing : Obligations.UnrecognisedWordsDoNothing := by
  unfold Obligations.UnrecognisedWordsDoNothing
  refine ⟨isNop_iff_no_form_selects, fun _ s => exec_of_isNop s, ?step⟩
  rintro s _ rnd i ⟨hup, rfl⟩ hfault hpc hdec hisNop
  calc step s = exec i { s.taken with pc := s.pc + 2#16, rnd := rnd } :=
        stepRunsDecodedInstruction s rnd i hup hfault hpc hdec
    _ = .next { s.taken with pc := s.pc + 2#16, rnd := rnd } := exec_of_isNop _ hisNop

end Sys2Proof.Machine
end

section
/-! PROOFS. When a step faults, and what taking a fault leaves (spec/60_exceptions.md R151 to R154). -/

namespace Sys2Proof.Machine

variable {s t : State}

/-! ### The conditions of the faults (R151) -/

/-- The execute phase of an instruction meets the condition of a fault. -/
inductive ExecFault (s : State) : Instr → FaultCode → Prop
  | sprite {x y n : Nibble} (hout : s.spriteOutside y n = true) : ExecFault s (.drw x y n) .spriteOutOfBounds
  | underflow (hempty : s.sp.val = 0) : ExecFault s .ret .stackUnderflow
  | overflow {nnn : Addr} (hfull : s.sp.val = 16) : ExecFault s (.call nnn) .stackOverflow

/-- A step on a running core meets the condition of a fault: in the fetch, or in the execute phase of what was fetched. -/
inductive StepFault (s : State) : FaultCode → Prop
  | fetch (hpc : 0x0FFE < s.pc.toNat) : StepFault s .fetchOutOfBounds
  | execute {i : Instr} {c : FaultCode} (hpc : s.pc.toNat ≤ 0x0FFE) (hdec : decode s.fetchBytes = .ok i)
      (hc : ExecFault s i c) : StepFault s c

theorem ExecFault.unique {i : Instr} {c d : FaultCode} (hc : ExecFault s i c) (hd : ExecFault s i d) : c = d := by
  cases hc <;> cases hd <;> rfl

/-- The fetch touches nothing the conditions speak of. -/
theorem execFault_fetched_iff {rnd : Option Byte} {i : Instr} {c : FaultCode} :
    ExecFault (s.fetched rnd) i c ↔ ExecFault s i c := by
  constructor <;> rintro (hout | hempty | hfull)
  iterate 2
    · exact .sprite hout
    · exact .underflow hempty
    · exact .overflow hfull

theorem StepFault.unique {c d : FaultCode} (hc : StepFault s c) (hd : StepFault s d) : c = d := by
  cases hc with
  | fetch hpc =>
    cases hd with
    | fetch => rfl
    | execute hpc' => omega
  | execute hpc hdec hc =>
    cases hd with
    | fetch hpc' => omega
    | execute _ hdec' hd =>
      cases hdec.symm.trans hdec'
      exact hc.unique hd

/-- An instruction takes the fault whose condition it meets, or meets none and leaves `FAULT`. -/
theorem exec_fault_or_none {i : Instr} (h : exec i s = .next t) :
    (∃ c, ExecFault s i c ∧ t = raise c s.beforeFetch) ∨ (t.fault = s.fault ∧ ∀ c, ¬ ExecFault s i c) := by
  rcases exec_faults s h with ⟨x, y, n, rfl, hout, e⟩ | ⟨rfl, hempty, e⟩ | ⟨nnn, rfl, hfull, e⟩ | ⟨hkeep, hin, hpos, hroom⟩
  · exact .inl ⟨_, .sprite hout, e⟩
  · exact .inl ⟨_, .underflow hempty, e⟩
  · exact .inl ⟨_, .overflow hfull, e⟩
  · refine .inr ⟨hkeep, fun c hc => ?_⟩
    cases hc with
    | sprite hout => exact Bool.false_ne_true ((hin _ _ _ rfl).symm.trans hout)
    | underflow hempty => exact hpos rfl hempty
    | overflow hfull => exact hroom _ rfl hfull

/-- A step on a running core takes the fault whose condition it meets, on the state before it but for the random byte at the
input (R152; logs 3 and 7), or meets none and leaves `FAULT` at 0. -/
theorem cpuStep_fault_or_none {rnd : Option Byte} (hrun : s.fault = 0#3) (h : cpuStep rnd s = .next t) :
    (∃ c r, StepFault s c ∧ t = { raise c s with rnd := r }) ∨ (t.fault = 0#3 ∧ ∀ c, ¬ StepFault s c) := by
  rcases cpuStep_cases s rnd with ⟨hhalt, _⟩ | ⟨_, hpc, e⟩ | ⟨_, hpc, e⟩
  · exact absurd hrun hhalt
  · cases e.symm.trans h
    exact .inl ⟨_, s.rnd, .fetch hpc, rfl⟩
  · rcases exec_fault_or_none (e ▸ h) with ⟨c, hc, rfl⟩ | ⟨hkeep, hnone⟩
    · refine .inl ⟨c, rnd, .execute hpc (decode_fetchBytes s) (execFault_fetched_iff.1 hc), ?_⟩
      rw [beforeFetch_fetched]
      rfl
    · refine .inr ⟨hkeep.trans hrun, fun c hc => ?_⟩
      cases hc with
      | fetch hpc' => omega
      | execute _ hdec hc =>
        cases (decode_fetchBytes s).symm.trans hdec
        exact hnone c (execFault_fetched_iff.2 hc)

/-- A step on a running core leaves the code of a fault exactly where it meets that fault's condition. -/
theorem cpuStep_fault_iff {rnd : Option Byte} (hrun : s.fault = 0#3) (h : cpuStep rnd s = .next t) (c : FaultCode) :
    t.fault = c.code ↔ StepFault s c := by
  rcases cpuStep_fault_or_none hrun h with ⟨d, r, hd, rfl⟩ | ⟨hnone, hno⟩
  · exact ⟨fun hcode => code_injective hcode ▸ hd, fun hc => congrArg FaultCode.code (hd.unique hc)⟩
  · exact ⟨fun hcode => absurd (hcode.symm.trans hnone) (code_ne_zero c), fun hc => absurd hc (hno c)⟩

theorem stepFault_fetch_iff : StepFault s .fetchOutOfBounds ↔ 0x0FFE < s.pc.toNat := by
  constructor
  · rintro (hpc | ⟨_, _, hc⟩)
    · exact hpc
    · cases hc
  · exact .fetch

theorem stepFault_sprite_iff : StepFault s .spriteOutOfBounds ↔ s.pc.toNat ≤ 0x0FFE ∧
    ∃ x y n, decode s.fetchBytes = .ok (.drw x y n) ∧ 0 < s.drawnRows y n ∧
      0x0FFF < s.index.toNat + s.drawnRows y n - 1 := by
  constructor
  · rintro (_ | ⟨hpc, hdec, hc⟩)
    cases hc with
    | sprite hout => exact ⟨hpc, _, _, _, hdec, (spriteOutside_iff s _ _).1 hout⟩
  · rintro ⟨hpc, x, y, n, hdec, hout⟩
    exact .execute hpc hdec (.sprite ((spriteOutside_iff s y n).2 hout))

theorem stepFault_underflow_iff : StepFault s .stackUnderflow ↔
    s.pc.toNat ≤ 0x0FFE ∧ decode s.fetchBytes = .ok .ret ∧ s.sp.val = 0 := by
  constructor
  · rintro (_ | ⟨hpc, hdec, hc⟩)
    cases hc with
    | underflow hempty => exact ⟨hpc, hdec, hempty⟩
  · rintro ⟨hpc, hdec, hempty⟩
    exact .execute hpc hdec (.underflow hempty)

theorem stepFault_overflow_iff : StepFault s .stackOverflow ↔
    s.pc.toNat ≤ 0x0FFE ∧ (∃ nnn, decode s.fetchBytes = .ok (.call nnn)) ∧ s.sp.val = 16 := by
  constructor
  · rintro (_ | ⟨hpc, hdec, hc⟩)
    cases hc with
    | overflow hfull => exact ⟨hpc, ⟨_, hdec⟩, hfull⟩
  · rintro ⟨hpc, ⟨nnn, hdec⟩, hfull⟩
    exact .execute hpc hdec (.overflow hfull)

/-- Settles O8: each code by its condition, the rest by what taking a fault leaves. -/
theorem faultsExactlyOnTheirConditions : Obligations.FaultsExactlyOnTheirConditions := by
  unfold Obligations.FaultsExactlyOnTheirConditions
  intro s s0 t rnd hreq hrun h
  rw [step_of_requested hreq] at h
  obtain ⟨es, n, rfl⟩ := requested_state hreq
  have hcode := cpuStep_fault_iff (s := { s with events := es, served := n }) hrun h
  refine ⟨(hcode .fetchOutOfBounds).trans stepFault_fetch_iff, (hcode .spriteOutOfBounds).trans stepFault_sprite_iff,
    (hcode .stackUnderflow).trans stepFault_underflow_iff, (hcode .stackOverflow).trans stepFault_overflow_iff, ?_⟩
  rcases cpuStep_fault_or_none (s := { s with events := es, served := n }) hrun h with ⟨c, r, _, rfl⟩ | ⟨hnone, _⟩
  · exact ⟨code_le c, fun _ => rfl⟩
  · exact ⟨hnone ▸ Nat.zero_le 4, fun hfault => absurd hnone hfault⟩

/-! ### What leaves `FAULT` (R152, R154) -/

theorem delayTick_fault (s : State) : s.delayTick.fault = s.fault := by rw [delayTick_eq, setDt_fault]

theorem soundTick_fault (s : State) : s.soundTick.fault = s.fault := by
  rcases soundTick_cases s with ⟨_, e⟩ | ⟨_, e⟩ <;> rw [e]
  rfl

/-- Settles O9: taking a fault starts from the state before the step, a halted core only loses the request, and the other
events leave `FAULT`. -/
theorem faultEntryIsPreciseAndHalts : Obligations.FaultEntryIsPreciseAndHalts := by
  unfold Obligations.FaultEntryIsPreciseAndHalts
  refine ⟨fun s s0 t rnd hreq hrun h hfault => ?precise, fun s s0 rnd hreq hhalt => ?halted,
    fun s t hnoStep hnoReset h => ?others⟩
  case precise =>
    rw [step_of_requested hreq] at h
    obtain ⟨es, n, rfl⟩ := requested_state hreq
    rcases cpuStep_fault_or_none (s := { s with events := es, served := n }) hrun h with ⟨c, r, _, rfl⟩ | ⟨hnone, _⟩
    · rfl
    · exact absurd hnone hfault
  case halted =>
    rw [step_of_requested hreq]
    obtain ⟨es, n, rfl⟩ := requested_state hreq
    exact cpuStep_halted _ rnd hhalt
  case others =>
    rw [← taken_fault s]
    rcases step_cases s with ⟨rnd, hup, _⟩ | ⟨_, e⟩ | ⟨_, e⟩ | ⟨x, y, _, e⟩ | ⟨_, e⟩ | ⟨image, hup, _⟩
    · exact absurd ⟨rnd, _, hup, rfl⟩ hnoStep
    · cases e.symm.trans h; exact delayTick_fault _
    · cases e.symm.trans h; exact soundTick_fault _
    · cases e.symm.trans h; rfl
    · cases e.symm.trans h; rfl
    · exact absurd ⟨image, hup⟩ hnoReset

end Sys2Proof.Machine
end

section
/-! PROOFS. The ticks, alone and beside a step of the CPU (spec/60_exceptions.md R160 to R165). -/

namespace Sys2Proof.Machine

variable {s t : State}

/-! ### One tick (R160, R161, R163, R165) -/

theorem delayTick_dt_toNat (s : State) : s.delayTick.dt.toNat = s.dt.toNat - 1 := by
  have := s.dt.isLt
  rw [delayTick_eq, setDt_dt, BitVec.toNat_ofNat, Nat.mod_eq_of_lt (by omega)]

theorem OnlyChanged.delayTick (s : State) : OnlyChanged [] [.dt] s s.delayTick := by
  rw [delayTick_eq]
  exact .setDt s _ (List.mem_singleton_self _) _

theorem OnlyChanged.soundTick (s : State) : OnlyChanged [] [.st, .outputs] s s.soundTick := by
  rcases soundTick_cases s with ⟨_, e⟩ | ⟨_, e⟩ <;> rw [e]
  · exact .trans (.emit s _ (by decide) _) (.setSt _ _ (by decide) _)
  · exact .refl s _ _

/-- Settles O43: the tick acts on the state with the event taken, whatever `FAULT` is. -/
theorem delayTickCountsDown : Obligations.DelayTickCountsDown := by
  unfold Obligations.DelayTickCountsDown
  intro s hup
  refine ⟨_, step_of_event hup, ?_, .delayTick s.taken⟩
  rw [delayTick_dt_toNat, taken_dt]

/-- Settles O44: the tick acts on the state with the event taken, whatever `FAULT` is. -/
theorem soundTickEmitsTone : Obligations.SoundTickEmitsTone := by
  unfold Obligations.SoundTickEmitsTone
  intro s hup
  refine ⟨_, step_of_event hup, ?_, ?_, .soundTick s.taken⟩
  · rw [soundTick_st_toNat, taken_st]
  · rw [soundTick_outputs, taken_outputs, taken_st]

/-! ### A tick beside a timer access (R164) -/

/-- Settles O47: the two orders of each pair, by what the access and the tick write. -/
theorem contendingTickAndAccess : Obligations.ContendingTickAndAccess := by
  unfold Obligations.ContendingTickAndAccess
  intro x s
  refine ⟨⟨⟨_, exec_ldVxDt _ x, ?tickThenRead⟩, ⟨_, exec_ldVxDt s x, ?readThenTick⟩⟩,
    ⟨⟨_, exec_ldDtVx _ x, ?tickThenDt⟩, ⟨_, exec_ldDtVx s x, ?dtThenTick⟩⟩,
    ⟨_, exec_ldStVx _ x, ?tickThenSt⟩, ⟨_, exec_ldStVx s x, ?stThenTick, ?tone⟩⟩
  case tickThenRead => rw [getV_setV_same, delayTick_dt_toNat]
  case readThenTick => rw [delayTick_eq, setDt_getV, getV_setV_same]
  case tickThenDt => exact (OnlyChanged.delayTick s).1 x List.not_mem_nil
  case dtThenTick => rw [delayTick_dt_toNat, setDt_dt]
  case tickThenSt => exact (OnlyChanged.soundTick s).1 x List.not_mem_nil
  case stThenTick => rw [soundTick_st_toNat, setSt_st]
  case tone => rw [soundTick_outputs, setSt_outputs, setSt_st]

/-! ### A tick beside a step that touches no timer (R164) -/

/-- A state with the timers, the outputs and the queue of another: the part of the state that ticks act on, and that no
instruction but the timer accesses reads or writes. -/
def State.withTimersOf (s u : State) : State :=
  { s with dt := u.dt, st := u.st, outputs := u.outputs, events := u.events }

/-- An instruction that touches no timer does the same whatever the timers, the outputs and the queue are, taking its fault
included. -/
theorem exec_withTimersOf {i : Instr} (u : State) (hi : touchesTimer i = false) (h : exec i s = .next t) :
    exec i (s.withTimersOf u) = .next (t.withTimersOf u) := by
  cases i
  case ldVxDt | ldDtVx | ldStVx => cases hi
  case ret =>
    rcases exec_ret_cases s with ⟨hpos, e⟩ | ⟨hempty, e⟩ <;> rw [e] at h <;> cases h
    · exact exec_ret_of_pos (s := s.withTimersOf u) hpos
    · exact exec_ret_of_empty (s := s.withTimersOf u) hempty
  case call nnn =>
    rcases exec_call_cases s nnn with ⟨hroom, e⟩ | ⟨hfull, e⟩ <;> rw [e] at h <;> cases h
    · exact exec_call_of_room (s := s.withTimersOf u) nnn hroom
    · exact exec_call_of_full (s := s.withTimersOf u) nnn hfull
  case drw x y n =>
    rcases exec_drw_cases s x y n with ⟨hin, e⟩ | ⟨hout, e⟩ <;> rw [e] at h <;> cases h
    · exact exec_drw_of_inside (s := s.withTimersOf u) hin
    · exact exec_drw_of_outside (s := s.withTimersOf u) hout
  all_goals
    cases h
    rfl

/-- So does a step of the CPU that runs no timer access: halted, faulting in the fetch or in the execute phase, or not. -/
theorem cpuStep_withTimersOf {rnd : Option Byte} (u : State)
    (hno : s.fault = 0#3 → s.pc.toNat ≤ 0x0FFE → touchesTimer (decodeWord s.fetchWord) = false)
    (h : cpuStep rnd s = .next t) : cpuStep rnd (s.withTimersOf u) = .next (t.withTimersOf u) := by
  rcases cpuStep_cases s rnd with ⟨hhalt, e⟩ | ⟨hrun, hpc, e⟩ | ⟨hrun, hpc, e⟩ <;> rw [e] at h
  · cases h; exact cpuStep_halted (s.withTimersOf u) rnd hhalt
  · cases h; exact cpuStep_fetchFault (s.withTimersOf u) rnd hrun hpc
  · exact (cpuStep_exec (s.withTimersOf u) rnd hrun hpc).trans (exec_withTimersOf u (hno hrun hpc) h)

/-- A state with another queue of events waiting. -/
def State.withQueue (s : State) (es : List Event) : State := { s with events := es }

/-- What a tick does depends on the timers and the outputs only, and leaves the queue as it is. -/
structure TimersOnly (f : State → State) : Prop where
  withTimersOf : ∀ s u : State, f (s.withTimersOf u) = s.withTimersOf (f u)
  withQueue : ∀ (s : State) (es : List Event), f (s.withQueue es) = (f s).withQueue es

theorem timersOnly_delayTick : TimersOnly State.delayTick where
  withTimersOf s u := by rw [delayTick_eq, delayTick_eq]; rfl
  withQueue s es := by rw [delayTick_eq, delayTick_eq]; rfl

theorem timersOnly_soundTick : TimersOnly State.soundTick where
  withTimersOf s u := by
    unfold State.soundTick
    rw [apply_ite s.withTimersOf]
    rfl
  withQueue s es := by
    unfold State.soundTick
    rw [apply_ite (State.withQueue · es)]
    rfl

/-- An event that acts on the timers only and a step that runs no timer access give one state in both orders. -/
theorem steps_two_comm {f : State → State} {tick : Event} (hf : TimersOnly f) (htick : ∀ u, deliver tick u = .next (f u))
    (rnd : Option Byte) (rest : List Event)
    (hno : s.fault = 0#3 → s.pc.toNat ≤ 0x0FFE → touchesTimer (decodeWord s.fetchWord) = false) :
    steps 2 (s.withQueue (tick :: .step rnd :: rest)) = steps 2 (s.withQueue (.step rnd :: tick :: rest)) := by
  obtain ⟨t, ht⟩ := cpuStep_next s rnd
  have hcpu : ∀ u, cpuStep rnd (s.withTimersOf u) = .next (t.withTimersOf u) := fun u => cpuStep_withTimersOf u hno ht
  have hstepFirst : step (s.withQueue (.step rnd :: tick :: rest)) =
      .next (t.withTimersOf (s.withQueue (tick :: rest))) := hcpu (s.withQueue (tick :: rest))
  have htickSecond : step (t.withTimersOf (s.withQueue (tick :: rest))) =
      .next (f (t.withTimersOf (s.withQueue rest))) := htick _
  have htickFirst : step (s.withQueue (tick :: .step rnd :: rest)) =
      .next (s.withTimersOf ((f s).withQueue (.step rnd :: rest))) := by
    rw [← hf.withQueue, ← hf.withTimersOf]
    exact htick _
  have hstepSecond : step (s.withTimersOf ((f s).withQueue (.step rnd :: rest))) =
      .next (t.withTimersOf ((f s).withQueue rest)) := hcpu ((f s).withQueue rest)
  rw [steps_succ htickFirst, steps_succ hstepSecond, steps_succ hstepFirst, steps_succ htickSecond, hf.withTimersOf,
    hf.withQueue]

/-- Settles O46: both ticks act on the timers only. -/
theorem ticksCommuteWithOtherSteps : Obligations.TicksCommuteWithOtherSteps := by
  unfold Obligations.TicksCommuteWithOtherSteps
  intro s tick rnd rest htick hno
  have hno' := fun hrun hpc => hno hrun hpc _ (decode_fetchBytes s)
  rcases htick with rfl | rfl
  · exact steps_two_comm timersOnly_delayTick (fun _ => rfl) rnd rest hno'
  · exact steps_two_comm timersOnly_soundTick (fun _ => rfl) rnd rest hno'

end Sys2Proof.Machine
end
